-- ==== Sys2Proof/Word.lean ====
section
/-! DEFINITION. The words of PCG-CORE (00_scope rules R6, R7, R9). Arithmetic on them is `BitVec` arithmetic: unsigned, with
silent wrap-around modulo 2^64 and 2^32 (R9, R50), bit 0 the least significant bit. -/

namespace Sys2Proof

/-- The spec's `u64`: `state`, `inc`, `MULT`, the operands of SEED and ADVANCE (R6). -/
abbrev U64 := BitVec 64

/-- The spec's `u32`: outputs, `bound`, `threshold`, candidates (R6). -/
abbrev U32 := BitVec 32

/-- The command word `CW = cmd_b ∥ cmd_a ∥ cmd_op` (R36). -/
abbrev CommandWord := BitVec 130

/-- The response word `RW = status ∥ data` (R40). -/
abbrev ResponseWord := BitVec 33

end Sys2Proof
end

