-- ==== Sys2Proof/Syntax.lean ====
section
/-! DEFINITION. The four commands of PCG-CORE, one constructor per row of spec/opcode_table.json (30_encoding R37), with the
operands of R38. Bits that R38 calls ignored have no field: they change nothing (R39). -/

namespace Sys2Proof

/-- A command with its operands, as the block uses them. -/
inductive Instr where
  /-- SEED, op 0 (R60): creates the GeneratorState from a state seed and a sequence selector. -/
  | seed (initialState sequenceSelector : U64)
  /-- NEXT, op 1 (R65): one output, one LCG step. -/
  | next
  /-- BOUNDED, op 2 (R78): a value in `[0, bound)` by rejection sampling; `bound = 0` is a raw draw (R79). -/
  | bounded (bound : U32)
  /-- ADVANCE, op 3 (R70): a jump by `delta` LCG steps; `delta` is the source's `i64` read modulo 2^64 (R71). -/
  | advance (delta : U64)
deriving DecidableEq, Repr

end Sys2Proof
end

