-- ==== Sys2Proof/Machine/Operands.lean ====
section
/-! DEFINITION. The fields of the command word and the operand forms (30_encoding R36 to R39). No operand is scaled, shifted or
sign-extended inside the block (R38). -/

namespace Sys2Proof.Machine

/-- `CW = b ∥ a ∥ op` (R36). -/
def commandWord (op : BitVec 2) (a b : U64) : CommandWord :=
  b ++ a ++ op

/-- `op = CW[1:0]` (R36). -/
def opField (cw : CommandWord) : BitVec 2 :=
  cw.extractLsb' 0 2

/-- `a = CW[65:2]` (R36). -/
def aField (cw : CommandWord) : U64 :=
  cw.extractLsb' 2 64

/-- `b = CW[129:66]` (R36). -/
def bField (cw : CommandWord) : U64 :=
  cw.extractLsb' 66 64

/-- `bound = a[31:0]`; `a[63:32]` is ignored (R38). -/
def boundOperand (a : U64) : U32 :=
  a.extractLsb' 0 32

/-- `zext_64(bound)`: what a host drives on `cmd_a` for a bound, the ignored bits 0 (R39, R47). -/
def boundToOperand (bound : U32) : U64 :=
  bound.setWidth 64

/-- The opcodes (R37). -/
def opSeed : BitVec 2 := 0

def opNext : BitVec 2 := 1

def opBounded : BitVec 2 := 2

def opAdvance : BitVec 2 := 3

end Sys2Proof.Machine
end

