-- ==== Sys2Proof/Transcript.lean ====
section
/-! DEFINITION. The lines of a transcript, the assembler syntax of PCG-CORE (30_encoding R44 to R49), with their numerals as the
text writes them: as numbers, not yet as words. Which numerals are in range is `Line.wf` (Sys2Proof/WellFormed.lean); the text
form, the commands and the expected responses are in Sys2Proof/Machine/Transcript.lean. -/

namespace Sys2Proof

/-- One transcript line: a command and, where it returns a value, the value its response must carry. -/
inductive Line where
  /-- `seed <u64> <u64>` (R45). -/
  | seed (stateSeed sequenceSeed : Nat)
  /-- `next <u32>` (R46). -/
  | next (value : Nat)
  /-- `next_bounded <u32:bound> <u32:result>` (R47). -/
  | nextBounded (bound result : Nat)
  /-- `advance <i32>` (R48). -/
  | advance (delta : Int)
deriving DecidableEq, Repr

end Sys2Proof
end

