-- ==== Sys2Proof/WellFormed.lean ====
section
/-! DEFINITION. What can be ill-formed before it reaches the block. An `Instr` cannot: its fields have exactly the widths of
30_encoding R38 and every value of them is valid (R42, 60_exceptions R92), so there is no check on it. A number offered as a
command word must fit 130 bits (R36), and the numerals of a transcript line must fit their types (R44, 91_not_in_source N16). -/

namespace Sys2Proof

/-- A number is a command word when it has 130 bits (R36). -/
def CommandWord.inRange (w : Nat) : Bool :=
  decide (w < 2 ^ 130)

/-- The numerals of a transcript line are in the ranges of their types `<u64>`, `<u32>`, `<i32>` (R44 to R48). -/
def Line.wf : Line → Bool
  | .seed a b => decide (a < 2 ^ 64) && decide (b < 2 ^ 64)
  | .next v => decide (v < 2 ^ 32)
  | .nextBounded b v => decide (b < 2 ^ 32) && decide (v < 2 ^ 32)
  | .advance d => decide (-2147483648 ≤ d) && decide (d ≤ 2147483647)

end Sys2Proof
end

