-- ==== Sys2Proof/Decode.lean ====
section
/-! DEFINITION. The decoder and the encoder of command words (30_encoding R36 to R43). Every one of the 2^130 words is a command
(R42), so the decoder refuses no command word; `decodeTableWord` refuses a number that is no command word. -/

namespace Sys2Proof

open Machine

/-- The command a command word stands for (R37, R38). Total: all four opcodes are commands (R42). -/
def decode (cw : CommandWord) : Instr :=
  if opField cw = opSeed then .seed (aField cw) (bField cw)
  else if opField cw = opNext then .next
  else if opField cw = opBounded then .bounded (boundOperand (aField cw))
  else .advance (aField cw)

/-- The command word of a command, the ignored bits driven to 0 (R36 to R39). -/
def encode : Instr → CommandWord
  | .seed initialState sequenceSelector => commandWord opSeed initialState sequenceSelector
  | .next => commandWord opNext 0 0
  | .bounded bound => commandWord opBounded (boundToOperand bound) 0
  | .advance delta => commandWord opAdvance delta 0

/-- The command the decoder reads from the bits `w`, numbered as spec/opcode_table.json numbers them (`CW[0]` least significant,
R36); bits at and above `nbits` are 0. A number of more than 130 bits is no command word and is refused. -/
def decodeTableWord (nbits w : Nat) : Option Instr :=
  let bits := w % 2 ^ nbits
  if CommandWord.inRange bits then some (decode (BitVec.ofNat 130 bits)) else none

end Sys2Proof
end

