-- ==== Sys2Proof/Config.lean ====
section
/-! DEFINITION. What an implementation of PCG-CORE fixes: the one parameter of the spec (00_scope R4, 10_state R12). The model
has no free value: no command leaves an undefined result. -/

namespace Sys2Proof

/-- The parameters of one block. The model is written for every value of them (92_eei_decisions D8). -/
structure Config where
  /-- `MULT`, the LCG multiplier: "a fixed constant", never mutated (R4, R12). -/
  mult : U64
deriving DecidableEq, Repr

end Sys2Proof
end

