-- ==== Sys2Proof/Machine/Primitives.lean ====
section
/-! DEFINITION. The datapath primitives of 40_primitives.md and the two arithmetic pieces of BOUNDED. Pure functions of their
arguments; `MULT` is an argument (R4, D8). -/

namespace Sys2Proof.Machine

/-- The default value of the parameter `MULT` (R4; from general knowledge, 93_implementation_defined G1).
PRESUMED, log entry 1: unsafe for a block with another multiplier. -/
def defaultMult : U64 := 0x5851F42D4C957F2D

/-- The raw LCG step `lcg_step(s, c) = (s *64 MULT) +64 c` (R52), with `MULT` as `mult`. -/
def lcgStep (mult s c : U64) : U64 :=
  s * mult + c

/-- Rotation of a 32-bit word to the right by 0 to 31 places (R53); rotation by 0 is the identity. -/
def rotr32 (x : U32) (r : BitVec 5) : U32 :=
  if r = 0 then x else (x >>> r.toNat) ||| (x <<< (32 - r.toNat))

/-- The XSH-RR output transform (R54): xor-shift by 18, shift by 27 and then truncate, rotate right by the top five bits. -/
def xshRr (s : U64) : U32 :=
  let x : U64 := (s >>> 18) ^^^ s
  let xorshifted : U32 := (x >>> 27).setWidth 32
  let rotation : BitVec 5 := (s >>> 59).setWidth 5
  rotr32 xorshifted rotation

/-- The registers of the jump loop (R23, R56). -/
structure Jump where
  accMult : U64
  accInc : U64
  curMult : U64
  curInc : U64
deriving DecidableEq, Repr

/-- One iteration of the jump loop for one bit of `delta` (R56): accumulate if the bit is set, then square the running map,
`cur_inc` from the UNSQUARED `cur_mult`. -/
def jumpBit (bit : Bool) (j : Jump) : Jump :=
  match j with
  | ⟨accMult, accInc, curMult, curInc⟩ =>
    { accMult := if bit then accMult * curMult else accMult
      accInc := if bit then accInc * curMult + curInc else accInc
      curInc := curInc * (curMult + 1)
      curMult := curMult * curMult }

/-- The registers of the jump loop after the iterations for bits 0 to `k - 1` of `n`, least significant bit first (R56). -/
def jumpAfter (m c n : U64) : Nat → Jump
  | 0 => { accMult := 1, accInc := 0, curMult := m, curInc := c }
  | k + 1 => jumpBit (n.getLsbD k) (jumpAfter m c n k)

/-- `affine_pow(m, c, n)` (R56): the accumulators after all 64 bits of `n`. -/
def affinePow (m c n : U64) : U64 × U64 :=
  match jumpAfter m c n 64 with
  | ⟨accMult, accInc, _, _⟩ => (accMult, accInc)

/-- `threshold = neg_32(bound) mod bound`, in unsigned 32-bit arithmetic, for `bound != 0` (R80). -/
def threshold (bound : U32) : U32 :=
  -bound % bound

/-- What BOUNDED answers for one candidate: `bound = 0` takes it raw (R79); otherwise a candidate at or above the threshold gives
its remainder (R81) and one below it is rejected (`none`). No remainder is formed with `bound = 0` (R51). -/
def acceptCandidate (bound candidate : U32) : Option U32 :=
  if bound = 0 then some candidate
  else if threshold bound ≤ candidate then some (candidate % bound)
  else none

end Sys2Proof.Machine
end

