-- ==== Sys2Proof/Machine/State.lean ====
section
/-! DEFINITION. The state of one PCG-CORE instance as plain data (10_state.md, 30_encoding R35 to R41, 70_reset_and_hazards R105
to R112), the reasons a step can stop, and the state after reset. No memory, no program counter and no register file exist
(R18 to R22, R26). -/

namespace Sys2Proof.Machine

/-- The GeneratorState: "the only persistent entity" (R10, R11, R16). -/
structure GeneratorState where
  /-- The LCG accumulator; every value is legal (R10, R15). -/
  state : U64
  /-- The increment, which selects the stream; odd in every reachable state (R11, R14). -/
  inc : U64
deriving DecidableEq, Repr

/-- The status codes of a response (R41, R91). -/
inductive Status where
  /-- Code 0. -/
  | ok
  /-- Code 1, `ERR_UNSEEDED`: NEXT, BOUNDED or ADVANCE accepted while `seeded = 0` (R90). -/
  | errUnseeded
deriving DecidableEq, Repr

/-- A response: `rsp_status` and `rsp_data` (R40, R41). -/
structure Response where
  status : Status
  data : U32
deriving DecidableEq, Repr

/-- Where the block stands in the handshake (R24, R112). -/
inductive Phase where
  /-- `cmd_ready = 1`, `rsp_valid = 0`: no command in progress, no response pending. -/
  | idle
  /-- `cmd_ready = 0`, `rsp_valid = 1`: the response waits for delivery and is held unchanged (R41). -/
  | responding (response : Response)
  /-- `cmd_ready = 0`, `rsp_valid = 0`: a BOUNDED command with this latched bound is in its loop (R81, R84). `execBounded` gives
  the whole command in one step whenever its loop ends, so this phase is entered only by a loop that never ends (R87). -/
  | drawing (bound : U32)
deriving DecidableEq, Repr

/-- The signals the host drives, as sampled at one instant (R35, R41, R105). -/
structure Pins where
  rst : Bool
  cmdValid : Bool
  cmdOp : BitVec 2
  cmdA : U64
  cmdB : U64
  rspReady : Bool
deriving DecidableEq, Repr

/-- One instance of the block with its host's side of the ports. -/
structure State where
  /-- The parameter `MULT`: constant, carried so that the model holds for every value of it (R4, R12, log entry 2). -/
  config : Config
  /-- `none` while `seeded = 0`, `some (state, inc)` while `seeded = 1`: the form 10_state.md gives (R13, R105, log entry 3). -/
  gen : Option GeneratorState
  /-- The handshake and the response port's register (R41, R112). -/
  phase : Phase
  /-- What the host drives at the coming instants, oldest first (the model's own field, log entry 4). -/
  inputs : List Pins
  /-- The responses delivered so far, oldest first: the result of a run (R119; the model's own field, log entry 9). -/
  delivered : List Response
deriving DecidableEq, Repr

/-- The reasons the machine could stop. There are none: the spec's one fault, `ERR_UNSEEDED`, is a response after which the
block goes on (R90, R96), nothing else faults (R92), and a BOUNDED whose loop never ends stays busy (R87). Nothing raises a
`Fault`; safe. -/
inductive Fault where
deriving DecidableEq, Repr

/-- The reasons the model could refuse a command. -/
inductive Refusal where
  /-- Raised by `exec`'s arm of a command that has no meaning in the model; every command has one, so nothing raises it. Safe. -/
  | notModelled (mnemonic : String)
deriving DecidableEq, Repr

/-- The machine right after reset, released (R105, R106): `seeded = 0`, no value in `state` and `inc`, no command in progress, no
response pending; the host has driven nothing yet and received nothing yet. -/
def State.reset : State :=
  { config := { mult := defaultMult }
    gen := none
    phase := .idle
    inputs := []
    delivered := [] }

end Sys2Proof.Machine
end

