-- ==== Sys2Proof/Machine/Ops.lean ====
section
/-! DEFINITION. The named operations over the state: the response port, the fault, the GeneratorState, a draw and the rejection
loop, reset, and the ports as the host sees them. -/

namespace Sys2Proof.Machine

/-! The ports -/

/-- The code of a status on `rsp_status` (R41, R91). -/
def Status.code : Status → BitVec 1
  | .ok => 0
  | .errUnseeded => 1

/-- `RW = status ∥ data` (R40). -/
def Response.word (r : Response) : ResponseWord :=
  r.status.code ++ r.data

/-- The command word the host presents (R36). -/
def Pins.word (p : Pins) : CommandWord :=
  commandWord p.cmdOp p.cmdA p.cmdB

/-- The host drives nothing: no reset, no command, no readiness for a response. -/
def Pins.quiet : Pins :=
  { rst := false, cmdValid := false, cmdOp := 0, cmdA := 0, cmdB := 0, rspReady := false }

/-- The host presents the command word `cw` (R35, R36). -/
def Pins.present (cw : CommandWord) : Pins :=
  { rst := false, cmdValid := true, cmdOp := opField cw, cmdA := aField cw, cmdB := bField cw, rspReady := false }

/-- The host takes a response (R41). -/
def Pins.take : Pins :=
  { Pins.quiet with rspReady := true }

/-- The host applies reset (R105). -/
def Pins.resetPulse : Pins :=
  { Pins.quiet with rst := true }

/-- `cmd_ready` (R35, R112), as a function of the phase alone.
DESIGN CHOICE, log entry 15: the spec gives the signal's value only once reset is released (R105, R106); at an instant with
`rst = 1` the model leaves it at the phase's value, 1 in `Phase.idle`, although `instant` accepts nothing then. -/
def State.cmdReady (s : State) : Bool :=
  match s.phase with
  | .idle => true
  | .responding _ => false
  | .drawing _ => false

/-- The response on the response port; `none` is `rsp_valid = 0`, when `rsp_status` and `rsp_data` are don't-care (R41, R106).
DESIGN CHOICE, log entry 15: at an instant with `rst = 1` the port still shows what the phase before the instant gives, a waiting
response included, although `instant` delivers nothing then. -/
def State.response (s : State) : Option Response :=
  match s.phase with
  | .idle => none
  | .responding r => some r
  | .drawing _ => none

/-- `rsp_valid` (R41), as a function of the phase alone.
DESIGN CHOICE, log entry 15: the spec gives `rsp_valid = 0` for the reset state that is entered (R105, R106); at the instant at
which `rst = 1` is sampled while a response waits the model leaves the signal at the phase's value, 1. -/
def State.rspValid (s : State) : Bool :=
  s.response.isSome

/-- The pins sampled at this instant. Past the end of the list the host drives nothing (log entry 4). -/
def State.pins (s : State) : Pins :=
  s.inputs.headD Pins.quiet

/-- The instant is over: the next sample is due. -/
def State.popInput (s : State) : State :=
  { s with inputs := s.inputs.tail }

/-- The host presents `cw` at the very next instant, with the block ready to accept it (R35). -/
def State.presenting (s : State) (cw : CommandWord) : State :=
  { s with phase := .idle, inputs := Pins.present cw :: s.inputs }

/-! The end of a command -/

/-- `respond(status, data)`: the command ends and its response is on the response port (R9, R40). -/
def respond (status : Status) (data : U32) (s : State) : State :=
  { s with phase := .responding { status, data } }

/-- `raise Unseeded`, the one exception of the block (R90, R96): the response `status = 1`, `data = 0`, and no other effect. There
is nothing to save, no handler and no return (R96, R97): the next command is processed by the ordinary rules. -/
def raiseUnseeded (s : State) : State :=
  respond .errUnseeded 0 s

/-- The response leaves the port and the block is ready again (R41); the host has received it (R119). -/
def deliver (r : Response) (s : State) : State :=
  { s with phase := .idle, delivered := s.delivered ++ [r] }

/-! The GeneratorState -/

/-- `state <- …`, `inc <- …` with `seeded = 1`: a GeneratorState exists and is `g`. -/
def State.setGen (s : State) (g : GeneratorState) : State :=
  { s with gen := some g }

/-- The GeneratorState after SEED (R60): the five steps in the source's order. -/
def seedGenerator (mult initialState sequenceSelector : U64) : GeneratorState :=
  let inc : U64 := (sequenceSelector <<< 1) ||| (1 : U64)
  let first := lcgStep mult 0 inc
  let added := first + initialState
  { state := lcgStep mult added inc, inc := inc }

/-- `draw()` (R66): the output of the PRE-step state, and the GeneratorState after one LCG step. -/
def draw (mult : U64) (g : GeneratorState) : U32 × GeneratorState :=
  (xshRr g.state, { g with state := lcgStep mult g.state g.inc })

/-- The GeneratorState after a jump by `delta` (R70). -/
def jump (mult delta : U64) (g : GeneratorState) : GeneratorState :=
  match affinePow mult g.inc delta with
  | (accMult, accInc) => { g with state := accMult * g.state + accInc }

/-! The rejection loop -/

/-- The loop of BOUNDED for at most `fuel` draws (R81): the result and the GeneratorState after the accepting draw, or `none` when
every one of these candidates is rejected. -/
def drawUntil (bound : U32) (mult : U64) : Nat → GeneratorState → Option (U32 × GeneratorState)
  | 0, _ => none
  | fuel + 1, g =>
    match draw mult g with
    | (candidate, g') =>
      match acceptCandidate bound candidate with
      | some value => some (value, g')
      | none => drawUntil bound mult fuel g'

/-- The number of states of the LCG. The candidates are a function of `state`, which has 2^64 values, so a loop that has not ended
after this many draws never ends: the limit cuts no loop short that would have ended (R87, log entry 6). -/
def drawLimit : Nat := 2 ^ 64

/-- One draw of the loop of a BOUNDED command in progress (R81, R84): accept and respond, or stay in the loop. -/
def loopDraw (bound : U32) (s : State) : State :=
  match s.gen with
  | none => s
  | some g =>
    match draw s.config.mult g with
    | (candidate, g') =>
      match acceptCandidate bound candidate with
      | some value => respond .ok value (s.setGen g')
      | none => s.setGen g'

/-! Reset -/

/-- Reset is applied, whatever the block was doing (R105, R107): `seeded = 0`, no command in progress, no response pending.
`MULT` is no state (R106); what the host will drive and has received is the host's. -/
def applyReset (s : State) : State :=
  { s with gen := none, phase := .idle }

end Sys2Proof.Machine
end

