-- ==== Sys2Proof/Machine/Flags.lean ====
section
/-! DEFINITION. The one flag of the block, `seeded` (10_state R13, R20), and the test on it that NEXT, BOUNDED and ADVANCE make
before anything else (60_exceptions R95). No operation sets any other flag (R20). -/

namespace Sys2Proof.Machine

/-- `seeded`: a GeneratorState exists (R13). -/
def State.seeded (s : State) : Bool :=
  s.gen.isSome

/-- `if seeded = 0: raise Unseeded`, else go on with the GeneratorState (R65, R70, R78, R95). -/
def whenSeeded (s : State) (body : GeneratorState → State) : State :=
  match s.gen with
  | none => raiseUnseeded s
  | some g => body g

end Sys2Proof.Machine
end

