-- ==== Sys2Proof/Machine/Advance.lean ====
section
/-! DEFINITION. The jump-ahead family: ADVANCE (43_advance.md). -/

namespace Sys2Proof.Machine

/-- ADVANCE (R70): moves `state` by `delta`, read modulo 2^64 (R71); `inc` stays; responds (0, 0). -/
def execAdvance (delta : U64) (s : State) : Host.Outcome State Fault Refusal :=
  .next (whenSeeded s fun g => respond .ok 0 (s.setGen (jump s.config.mult delta g)))

end Sys2Proof.Machine
end

