-- ==== Sys2Proof/Machine/Bounded.lean ====
section
/-! DEFINITION. The bounded generation family: BOUNDED (44_bounded_next.md). -/

namespace Sys2Proof.Machine

/-- BOUNDED (R78): draws until a candidate is accepted and responds with its result, in one atomic step (R84). When no candidate is
ever accepted the command never responds (R81, R87): the block stays in its loop, busy, until reset. -/
def execBounded (bound : U32) (s : State) : Host.Outcome State Fault Refusal :=
  .next (whenSeeded s fun g =>
    match drawUntil bound s.config.mult drawLimit g with
    | some (value, g') => respond .ok value (s.setGen g')
    | none => { s with phase := .drawing bound })

end Sys2Proof.Machine
end

