-- ==== Sys2Proof/Machine/Next.lean ====
section
/-! DEFINITION. The generation family: NEXT (42_next.md). -/

namespace Sys2Proof.Machine

/-- NEXT (R65): one draw; the response carries the output of the pre-step state (R67). -/
def execNext (s : State) : Host.Outcome State Fault Refusal :=
  .next (whenSeeded s fun g =>
    match draw s.config.mult g with
    | (output, g') => respond .ok output (s.setGen g'))

end Sys2Proof.Machine
end

