-- ==== Sys2Proof/Machine/Seed.lean ====
section
/-! DEFINITION. The initialisation family: SEED (41_seed.md). -/

namespace Sys2Proof.Machine

/-- SEED (R60): replaces the GeneratorState, sets `seeded`, responds (0, 0); never faults, seeded or not (R63). -/
def execSeed (initialState sequenceSelector : U64) (s : State) : Host.Outcome State Fault Refusal :=
  .next (respond .ok 0 (s.setGen (seedGenerator s.config.mult initialState sequenceSelector)))

end Sys2Proof.Machine
end

