-- ==== Sys2Proof/Machine/Dispatch.lean ====
section
/-! DEFINITION. One arm per command (30_encoding R37): the command's transition, once it is accepted. -/

namespace Sys2Proof.Machine

def exec (i : Instr) (s : State) : Host.Outcome State Fault Refusal :=
  match i with
  | .seed initialState sequenceSelector => Sys2Proof.Machine.execSeed initialState sequenceSelector s
  | .next => Sys2Proof.Machine.execNext s
  | .bounded bound => Sys2Proof.Machine.execBounded bound s
  | .advance delta => Sys2Proof.Machine.execAdvance delta s

end Sys2Proof.Machine
end

