-- ==== Sys2Proof/Machine/Port.lean ====
section
/-! DEFINITION. What the block does at one sampling instant of its ports (30_encoding R35, R41; 70_reset_and_hazards R105, R107,
R111, R112). -/

namespace Sys2Proof.Machine

/-- One instant with the pins `p`. Reset overrides everything (R95, R107). An idle block accepts a presented command and executes
it (R29, R35); a block with a response waiting delivers it when the host is ready, and else holds it (R41); a block in the loop
of a BOUNDED command draws once more (R84). A busy block accepts nothing (R112). -/
def instant (p : Pins) (s : State) : Host.Outcome State Fault Refusal :=
  if p.rst then .next (applyReset s)
  else
    match s.phase with
    | .idle => if p.cmdValid then exec (decode p.word) s else .next s
    | .responding r => if p.rspReady then .next (deliver r s) else .next s
    | .drawing bound => .next (loopDraw bound s)

end Sys2Proof.Machine
end

