-- ==== Sys2Proof/Machine/Step.lean ====
section
/-! DEFINITION. The step: one sampling instant of the ports, with the host's next sample (log entries 4 and 5). -/

namespace Sys2Proof.Machine

/-- The block samples the host's next pins and acts on them. -/
def step (s : State) : Host.Outcome State Fault Refusal :=
  instant s.pins s.popInput

/-- `s` with the command word whose bits are `w` presented at the very next instant to a ready block, so that the next step
accepts and runs it (log entry 10). Bits at and above `nbits` are 0. -/
def State.withFetchWord (s : State) (nbits w : Nat) : State :=
  s.presenting (BitVec.ofNat 130 (w % 2 ^ nbits))

end Sys2Proof.Machine
end

