-- ==== Sys2Proof/Machine/Transcript.lean ====
section
/-! DEFINITION. The transcript as the assembler of PCG-CORE (30_encoding R44 to R49): the text of its lines, their commands and the
responses they expect. A text is a list of characters. -/

namespace Sys2Proof.Machine

/-! Reading a text (R44) -/

/-- The value of a decimal digit. -/
def digitValue (c : Char) : Option Nat :=
  if '0' ≤ c ∧ c ≤ '9' then some (c.toNat - 48) else none

/-- The digits `cs` read after the value `acc`. -/
def parseDigits (acc : Nat) : List Char → Option Nat
  | [] => some acc
  | c :: cs =>
    match digitValue c with
    | some d => parseDigits (10 * acc + d) cs
    | none => none

/-- A decimal numeral without sign and without leading zeros; `0` for zero. -/
def parseNat (cs : List Char) : Option Nat :=
  match cs with
  | [] => none
  | c :: rest =>
    if c = '0' then (if rest = [] then some 0 else none) else parseDigits 0 (c :: rest)

/-- An optional ASCII `-` and a numeral. -/
def parseInt (cs : List Char) : Option Int :=
  match cs with
  | [] => none
  | c :: rest =>
    if c = '-' then (parseNat rest).map fun n => -(n : Int) else (parseNat (c :: rest)).map fun n => (n : Int)

/-- The pieces of a text between the separators `sep`; one more piece than there are separators. -/
def pieces (sep : Char) : List Char → List (List Char)
  | [] => [[]]
  | c :: cs =>
    if c = sep then [] :: pieces sep cs
    else
      match pieces sep cs with
      | [] => [[c]]
      | p :: ps => (c :: p) :: ps

/-- The four keywords (R37). -/
def kwSeed : List Char := ['s', 'e', 'e', 'd']

def kwNext : List Char := ['n', 'e', 'x', 't']

def kwNextBounded : List Char := ['n', 'e', 'x', 't', '_', 'b', 'o', 'u', 'n', 'd', 'e', 'd']

def kwAdvance : List Char := ['a', 'd', 'v', 'a', 'n', 'c', 'e']

/-- The line a keyword and its fields spell, whatever the numerals' ranges. -/
def lineOfFields (fields : List (List Char)) : Option Line :=
  match fields with
  | [kw, x] =>
    if kw = kwNext then (parseNat x).map Line.next
    else if kw = kwAdvance then (parseInt x).map Line.advance
    else none
  | [kw, x, y] =>
    if kw = kwSeed then (parseNat x).bind fun a => (parseNat y).map fun b => Line.seed a b
    else if kw = kwNextBounded then (parseNat x).bind fun b => (parseNat y).map fun v => Line.nextBounded b v
    else none
  | _ => none

/-- One line without its line feed: fields separated by exactly one space, numerals in range; anything else has no meaning
(R44, N16, 93_implementation_defined U14). -/
def parseLine (cs : List Char) : Option Line :=
  (lineOfFields (pieces ' ' cs)).filter Line.wf

/-- The lines of a text cut at its line feeds: the last piece is empty, because the last line also ends with one (R44). -/
def parseLines : List (List Char) → Option (List Line)
  | [] => none
  | [rest] => if rest = [] then some [] else none
  | cs :: rest => (parseLine cs).bind fun l => (parseLines rest).map fun ls => l :: ls

/-- A transcript: lines, each ended by U+000A (R44). `none`: malformed, no meaning. -/
def parseTranscript (text : List Char) : Option (List Line) :=
  parseLines (pieces '\n' text)

/-! Writing a text -/

/-- The decimal digit of a value below 10. -/
def digitChar (d : Nat) : Char :=
  Char.ofNat (48 + d)

/-- The last `fuel` decimal digits of `n`, without leading zeros. -/
def printDigits : Nat → Nat → List Char
  | 0, _ => []
  | fuel + 1, n => if n < 10 then [digitChar n] else printDigits fuel (n / 10) ++ [digitChar (n % 10)]

/-- A numeral of a `<u64>` or `<u32>`: at most 20 digits. -/
def printNat (n : Nat) : List Char :=
  printDigits 20 n

/-- A numeral of an `<i32>`. -/
def printInt (d : Int) : List Char :=
  if d < 0 then '-' :: printNat d.natAbs else printNat d.natAbs

/-- A line with its line feed (R44 to R48). -/
def printLine : Line → List Char
  | .seed a b => kwSeed ++ ' ' :: printNat a ++ ' ' :: printNat b ++ ['\n']
  | .next v => kwNext ++ ' ' :: printNat v ++ ['\n']
  | .nextBounded b v => kwNextBounded ++ ' ' :: printNat b ++ ' ' :: printNat v ++ ['\n']
  | .advance d => kwAdvance ++ ' ' :: printInt d ++ ['\n']

/-- The text of a transcript. -/
def printTranscript (ls : List Line) : List Char :=
  ls.flatMap printLine

/-! What a line means -/

/-- The command of a line (R45 to R48). The `<i32>` of `advance` is sign-extended to 64 bits (R48, C2). -/
def lineCommand : Line → Instr
  | .seed a b => .seed (BitVec.ofNat 64 a) (BitVec.ofNat 64 b)
  | .next _ => .next
  | .nextBounded b _ => .bounded (BitVec.ofNat 32 b)
  | .advance d => .advance ((BitVec.ofInt 32 d).signExtend 64)

/-- The command word of a line (R45 to R48). -/
def lineWord (l : Line) : CommandWord :=
  encode (lineCommand l)

/-- The response a line expects (R45 to R48). -/
def lineExpected : Line → Response
  | .seed _ _ => { status := .ok, data := 0 }
  | .next v => { status := .ok, data := BitVec.ofNat 32 v }
  | .nextBounded _ v => { status := .ok, data := BitVec.ofNat 32 v }
  | .advance _ => { status := .ok, data := 0 }

/-- A host that issues the line's command and then takes its response (R49). -/
def lineSamples (l : Line) : List Pins :=
  [Pins.present (lineWord l), Pins.take]

end Sys2Proof.Machine
end

