-- ==== Sys2Proof/Safety.lean ====
section
/-! DEFINITION. The terms claims use: the LCG orbit and its candidates, the invariant of the block, the premise on `MULT`, what one
accepted command may change, and when a transcript is conformant. -/

namespace Sys2Proof.Machine

/-- `s_j`: the LCG state `j` steps after that of `g` (R67, R81). -/
def orbit (mult : U64) (g : GeneratorState) (j : Nat) : U64 :=
  (fun x => lcgStep mult x g.inc)^[j] g.state

/-- `c_j = xsh_rr(s_j)`: the output of the draw number `j` from `g`, counted from 0 (R81). -/
def candidate (mult : U64) (g : GeneratorState) (j : Nat) : U32 :=
  xshRr (orbit mult g j)

/-- `g` moved `j` LCG steps along its stream. -/
def GeneratorState.after (g : GeneratorState) (mult : U64) (j : Nat) : GeneratorState :=
  { g with state := orbit mult g j }

/-- The premise on the parameter where the full period is used (R5): `MULT mod 4 = 1`. -/
def FullPeriod (mult : U64) : Prop :=
  mult % 4 = 1

/-- Draw `k` is the first that a BOUNDED with this bound accepts (R81). -/
def FirstAccepted (bound : U32) (mult : U64) (g : GeneratorState) (k : Nat) : Prop :=
  threshold bound ≤ candidate mult g k ∧ ∀ j, j < k → candidate mult g j < threshold bound

/-- `inc` is odd whenever `seeded = 1` (R14). -/
def State.OddInc (s : State) : Prop :=
  ∀ g, s.gen = some g → g.inc.getLsbD 0 = true

/-- A command in its loop is a BOUNDED with a non-zero bound on a seeded block none of whose candidates will ever be accepted: the
other commands end at once (R79, R90, R117), and a loop that ends is over in the step that accepts it (log entry 6). -/
def State.LoopSound (s : State) : Prop :=
  ∀ bound, s.phase = .drawing bound →
    bound ≠ 0 ∧ ∃ g, s.gen = some g ∧ ∀ j, candidate s.config.mult g j < threshold bound

/-- The invariant of the block. -/
def State.Inv (s : State) : Prop :=
  s.OddInc ∧ s.LoopSound

/-- The state a command leaves (no command stops the machine). -/
def stateAfter (i : Instr) (s : State) : State :=
  match exec i s with
  | .next t => t
  | .fault _ => s
  | .refused _ => s

/-- What a sequence of commands answers, one after the other, each after the response of the one before has been taken: the
responses in order and the idle state at the end. `none` if one of them never responds (R32, R87). -/
def answers : List Instr → State → Option (List Response × State)
  | [], s => some ([], s)
  | i :: is, s =>
    match (stateAfter i s).response with
    | none => none
    | some r =>
      match answers is { stateAfter i s with phase := .idle } with
      | none => none
      | some (rs, t) => some (r :: rs, t)

/-- What a host drives that issues the commands in order and takes each response before the next command (R32, R49). -/
def commandSamples (is : List Instr) : List Pins :=
  is.flatMap fun i => [Pins.present (encode i), Pins.take]

/-- `k` sampling instants of the block. -/
def instants (k : Nat) (s : State) : Host.Outcome State Fault Refusal :=
  Sys2Proof.core.run k s

/-- The transcript is conformant for the block in state `s` (R119): run from there, with the host issuing the lines in order and
taking each response before the next line, the delivered responses are line by line the expected ones. -/
def Conformant (ls : List Line) (s : State) : Prop :=
  ∃ t, instants (2 * ls.length) { s with inputs := ls.flatMap lineSamples, delivered := [] } = .next t ∧
    t.delivered = ls.map lineExpected

end Sys2Proof.Machine
end

