-- ==== Sys2Proof/Certificates/Slice0/Obligations.lean ====
section
/-! DEFINITION. The statements for the provers, each with the rule of spec/ it formalises. -/

open Sys2Proof Sys2Proof.Machine

/-! Encoding (30_encoding.md) -/

/-- R36 to R39: no operand bit is dropped by the encoding. -/
def Obligations.EncodeThenDecodeIsIdentity : Prop :=
  ∀ i : Instr, decode (encode i) = i

/-- R36, R37, R38: `CW = b * 2^66 + a * 2^2 + op` stands for the command of `op` with the operands of the table. -/
def Obligations.DecodeByOpcodeAndFields : Prop :=
  ∀ a b : U64,
    decode (BitVec.ofNat 130 (b.toNat * 2 ^ 66 + a.toNat * 2 ^ 2 + 0)) = .seed a b ∧
    decode (BitVec.ofNat 130 (b.toNat * 2 ^ 66 + a.toNat * 2 ^ 2 + 1)) = .next ∧
    decode (BitVec.ofNat 130 (b.toNat * 2 ^ 66 + a.toNat * 2 ^ 2 + 2)) = .bounded (BitVec.ofNat 32 (a.toNat % 2 ^ 32)) ∧
    decode (BitVec.ofNat 130 (b.toNat * 2 ^ 66 + a.toNat * 2 ^ 2 + 3)) = .advance a

/-- R39: two samples that differ only in ignored operand bits have the same effect, in every state. -/
def Obligations.IgnoredBitsChangeNothing : Prop :=
  ∀ (p q : Pins) (s : State),
    p.rst = q.rst → p.cmdValid = q.cmdValid → p.rspReady = q.rspReady → p.cmdOp = q.cmdOp →
    (p.cmdOp = 0 → p.cmdA = q.cmdA ∧ p.cmdB = q.cmdB) →
    (p.cmdOp = 2 → p.cmdA.toNat % 2 ^ 32 = q.cmdA.toNat % 2 ^ 32) →
    (p.cmdOp = 3 → p.cmdA = q.cmdA) →
    instant p s = instant q s

/-- The worked encodings of 30_encoding.md section 5 and of 95_test_vectors.md section 2.8. -/
def Obligations.WorkedEncodingsDecode : Prop :=
  decode 0x000000000000000d800000000000000a8 = .seed 42 54 ∧
  decode 0x000000000000000000000000000000001 = .next ∧
  decode 0x00000000000000000000000000000001a = .bounded 6 ∧
  decode 0x000000000000000000000000000000017 = .advance 5 ∧
  decode 0x00000000000000003ffffffff5556aaaf = .advance 0xFFFFFFFFD555AAAB ∧
  decode 0x0048d159e26af37bf7ab6fbbf7ab6fbbd = .next

/-- R45 to R48: the command word and the expected response of each well-formed transcript line; the `<i32>` of `advance` is
sign-extended to 64 bits. -/
def Obligations.TranscriptLinesAreCommands : Prop :=
  (∀ a b, (Line.seed a b).wf = true →
    (lineWord (.seed a b)).toNat = b * 2 ^ 66 + a * 2 ^ 2 + 0 ∧ lineExpected (.seed a b) = ⟨.ok, 0⟩) ∧
  (∀ v, (Line.next v).wf = true →
    (lineWord (.next v)).toNat = 1 ∧ (lineExpected (.next v)).status = .ok ∧ (lineExpected (.next v)).data.toNat = v) ∧
  (∀ b v, (Line.nextBounded b v).wf = true →
    (lineWord (.nextBounded b v)).toNat = b * 2 ^ 2 + 2 ∧ (lineExpected (.nextBounded b v)).status = .ok ∧
    (lineExpected (.nextBounded b v)).data.toNat = v) ∧
  (∀ d, (Line.advance d).wf = true →
    ((lineWord (.advance d)).toNat : Int) = (d % 2 ^ 64) * 2 ^ 2 + 3 ∧ lineExpected (.advance d) = ⟨.ok, 0⟩)

/-- R44: the text of well-formed lines reads back as those lines. -/
def Obligations.TranscriptReadsBackWhatItWrites : Prop :=
  ∀ ls : List Line, (∀ l, l ∈ ls → l.wf = true) → parseTranscript (printTranscript ls) = some ls

/-- N16, U14: a text whose numerals are out of range has no meaning; every line read is well-formed. -/
def Obligations.TranscriptLinesReadAreWellFormed : Prop :=
  ∀ (text : List Char) (ls : List Line), parseTranscript text = some ls → ∀ l, l ∈ ls → l.wf = true

/-! Primitives (40_primitives.md) -/

/-- R53. -/
def Obligations.RotationBitByBit : Prop :=
  (∀ (x : U32) (r : BitVec 5) (k : Nat), k < 32 → (rotr32 x r).getLsbD k = x.getLsbD ((k + r.toNat) % 32)) ∧
  (∀ x : U32, rotr32 x 0 = x) ∧
  (∀ (x : U32) (r : BitVec 5), 1 ≤ r.toNat → rotr32 x r = (x >>> r.toNat) ||| (x <<< (32 - r.toNat))) ∧
  rotr32 0x12345678 4 = 0x81234567 ∧ rotr32 0x80000001 1 = 0xC0000000 ∧ rotr32 0x80000001 31 = 0x00000003

/-- R55, bit-level form of R54: bit `k` of the output is bit `j = (k + s[63:59]) mod 32` of `xorshifted`. -/
def Obligations.OutputBitByBit : Prop :=
  ∀ (s : U64) (k : Nat), k < 32 →
    let j := (k + s.toNat / 2 ^ 59) % 32
    (j ≤ 18 → (xshRr s).getLsbD k = (s.getLsbD (j + 27) ^^ s.getLsbD (j + 45))) ∧
    (19 ≤ j → (xshRr s).getLsbD k = s.getLsbD (j + 27))

/-- R55, consequences: bits 26 to 0 never reach the output, and over all states every output is equally frequent. -/
def Obligations.OutputIsUniform : Prop :=
  (∀ s t : U64, s.toNat / 2 ^ 27 = t.toNat / 2 ^ 27 → xshRr s = xshRr t) ∧
  (∀ s : U64, s.toNat < 2 ^ 27 → xshRr s = 0) ∧
  (∀ v : U32, Nat.card { s : U64 // xshRr s = v } = 2 ^ 32)

/-- R52 with R9's operators; the corner cases of R52. -/
def Obligations.LcgStepIsAffine : Prop :=
  (∀ mult s c : U64, (lcgStep mult s c).toNat = ((s.toNat * mult.toNat) % 2 ^ 64 + c.toNat) % 2 ^ 64) ∧
  (∀ mult c : U64, lcgStep mult 0 c = c) ∧
  lcgStep defaultMult 1 1 = 0x5851F42D4C957F2E

/-- R57: what the jump loop and `affine_pow` compute. -/
def Obligations.AffinePowComputesTheIterate : Prop :=
  ∀ m c n : U64,
    let f := fun x : U64 => m * x + c
    (∀ k : Nat, k ≤ 64 → ∀ x : U64,
      (jumpAfter m c n k).curMult * x + (jumpAfter m c n k).curInc = f^[2 ^ k] x ∧
      (jumpAfter m c n k).accMult * x + (jumpAfter m c n k).accInc = f^[n.toNat % 2 ^ k] x) ∧
    (∀ x : U64, (affinePow m c n).1 * x + (affinePow m c n).2 = f^[n.toNat] x) ∧
    (affinePow m c n).1.toNat = m.toNat ^ n.toNat % 2 ^ 64 ∧
    (affinePow m c n).2.toNat = (c.toNat * ∑ i ∈ Finset.range n.toNat, m.toNat ^ i) % 2 ^ 64 ∧
    (∀ x : U64, f (f x) = m * m * x + c * (m + 1)) ∧
    (∀ accMult accInc curMult curInc x : U64,
      curMult * (accMult * x + accInc) + curInc = (accMult * curMult) * x + (accInc * curMult + curInc))

/-- R58: once the remaining bits are 0 the accumulators no longer change; the corner cases 0 and 1. -/
def Obligations.JumpLoopMayStopEarly : Prop :=
  (∀ (m c n : U64) (i j : Nat), i ≤ j → j ≤ 64 → n.toNat < 2 ^ i →
    (jumpAfter m c n j).accMult = (jumpAfter m c n i).accMult ∧ (jumpAfter m c n j).accInc = (jumpAfter m c n i).accInc ∧
    affinePow m c n = ((jumpAfter m c n i).accMult, (jumpAfter m c n i).accInc)) ∧
  (∀ m c : U64, affinePow m c 0 = (1, 0)) ∧
  (∀ m c : U64, affinePow m c 1 = (m, c))

/-- R59: for odd `MULT` the step is invertible, and jumping by `2^64 - k` inverts jumping by `k`. -/
def Obligations.OddMultiplierIsInvertible : Prop :=
  (∀ mult : U64, mult.getLsbD 0 = true →
    (∃ inverse : U64, mult * inverse = 1 ∧
      ∀ s c : U64, (lcgStep mult s c - c) * inverse = s ∧ lcgStep mult ((s - c) * inverse) c = s) ∧
    (∀ c : U64, Function.Bijective fun s => lcgStep mult s c) ∧
    (∀ c s : U64, (fun x => lcgStep mult x c)^[2 ^ 64] s = s) ∧
    ∀ c k s : U64,
      (affinePow mult c (-k)).1 * ((affinePow mult c k).1 * s + (affinePow mult c k).2) + (affinePow mult c (-k)).2 = s) ∧
  defaultMult * 0xC097EF87329E28A5 = 1

/-! SEED (41_seed.md) -/

/-- R60: the five steps in the source's order, `seeded <- 1`, the response (0, 0), nothing else, in every state. -/
def Obligations.SeedRunsTheFiveSteps : Prop :=
  ∀ (initialState sequenceSelector : U64) (s : State),
    exec (.seed initialState sequenceSelector) s = .next
      { s with
        gen :=
          some
            { state :=
                lcgStep s.config.mult (lcgStep s.config.mult 0 ((sequenceSelector <<< 1) ||| (1 : U64)) + initialState)
                  ((sequenceSelector <<< 1) ||| (1 : U64))
              inc := (sequenceSelector <<< 1) ||| (1 : U64) }
        phase := .responding ⟨.ok, 0⟩ }

/-- R61: the closed form of SEED, for every state, and its instance `seed(0, 0)`. -/
def Obligations.SeedClosedForm : Prop :=
  (∀ (initialState sequenceSelector : U64) (s : State),
    exec (.seed initialState sequenceSelector) s = .next
      { s with
        gen :=
          some
            { state :=
                ((2 * sequenceSelector + 1) + initialState) * s.config.mult + (2 * sequenceSelector + 1)
              inc := 2 * sequenceSelector + 1 }
        phase := .responding ⟨.ok, 0⟩ }) ∧
  (∀ s : State, (stateAfter (.seed 0 0) s).gen = some { state := s.config.mult + 1, inc := 1 }) ∧
  defaultMult + 1 = 0x5851F42D4C957F2E

/-- R62: `inc` is the selector without its top bit, over a 1; two SEED commands agree exactly when their selectors do modulo 2^63. -/
def Obligations.SeedDropsTheSelectorsTopBit : Prop :=
  ∀ (initialState selector selector' : U64) (s : State),
    (exec (.seed initialState selector) s = exec (.seed initialState selector') s ↔
      selector.toNat % 2 ^ 63 = selector'.toNat % 2 ^ 63) ∧
    ∃ g, (stateAfter (.seed initialState selector) s).gen = some g ∧ g.inc.getLsbD 0 = true ∧
      ∀ k, k < 63 → g.inc.getLsbD (k + 1) = selector.getLsbD k

/-! NEXT (42_next.md) -/

/-- R65, R66: one draw from the pre-step state; the fault when `seeded = 0`; nothing else changes. -/
def Obligations.NextDrawsOnce : Prop :=
  ∀ s : State,
    (∀ g, s.gen = some g →
      exec .next s = .next
        { s with
          gen := some { state := lcgStep s.config.mult g.state g.inc, inc := g.inc }
          phase := .responding ⟨.ok, xshRr g.state⟩ }) ∧
    (s.gen = none → exec .next s = .next { s with phase := .responding ⟨.errUnseeded, 0⟩ })

/-- R67: the output number `n + 1` is that of the state `n` steps on: never of the post-step state. -/
def Obligations.NthNextOutputsThePreStepState : Prop :=
  ∀ (s : State) (g : GeneratorState) (n : Nat), s.gen = some g →
    (stateAfter .next)^[n + 1] s =
      { s with
        gen := some { state := (fun x => lcgStep s.config.mult x g.inc)^[n + 1] g.state, inc := g.inc }
        phase := .responding ⟨.ok, xshRr ((fun x => lcgStep s.config.mult x g.inc)^[n] g.state)⟩ }

/-- R68: corner cases of NEXT on a seeded block. -/
def Obligations.NextCornerCases : Prop :=
  ∀ (s : State) (g : GeneratorState), s.gen = some g →
    (g.state.toNat < 2 ^ 59 →
      (stateAfter .next s).response = some ⟨.ok, ((g.state >>> 18 ^^^ g.state) >>> 27).setWidth 32⟩) ∧
    (g.state.toNat < 2 ^ 27 → (stateAfter .next s).response = some ⟨.ok, 0⟩) ∧
    (g.state = 0 → g.inc = 1 →
      (stateAfter .next s).gen = some ⟨1, 1⟩ ∧ (stateAfter .next (stateAfter .next s)).response = some ⟨.ok, 0⟩ ∧
      (stateAfter .next (stateAfter .next s)).gen = some ⟨s.config.mult + 1, 1⟩) ∧
    (g.state = BitVec.allOnes 64 →
      (stateAfter .next s).response = some ⟨.ok, 0xFFF00001⟩ ∧
      (stateAfter .next s).gen = some ⟨g.inc - s.config.mult, g.inc⟩) ∧
    (∃ x, (stateAfter .next s).gen = some ⟨x, g.inc⟩) ∧
    (stateAfter .next s).seeded = true

/-- R69 under the premise of R5: after `n` NEXT commands the GeneratorState is the first one again exactly when 2^64 divides `n`. -/
def Obligations.NextHasTheFullPeriod : Prop :=
  ∀ (s : State) (g : GeneratorState) (n : Nat),
    s.gen = some g → FullPeriod s.config.mult → g.inc.getLsbD 0 = true →
    (((stateAfter .next)^[n] s).gen = s.gen ↔ 2 ^ 64 ∣ n)

/-! ADVANCE (43_advance.md) -/

/-- R70: the affine map of `affine_pow` applied to `state`; the fault when `seeded = 0`; nothing else changes. -/
def Obligations.AdvanceAppliesAffinePow : Prop :=
  ∀ (delta : U64) (s : State),
    (∀ g, s.gen = some g →
      exec (.advance delta) s = .next
        { s with
          gen :=
            some
              { state :=
                  (affinePow s.config.mult g.inc delta).1 * g.state + (affinePow s.config.mult g.inc delta).2
                inc := g.inc }
          phase := .responding ⟨.ok, 0⟩ }) ∧
    (s.gen = none → exec (.advance delta) s = .next { s with phase := .responding ⟨.errUnseeded, 0⟩ })

/-- R72: ADVANCE by `delta` is `delta` LCG steps, for every 64-bit `delta` and every `MULT`; a NEXT after it answers what the NEXT
number `delta + 1` answers. -/
def Obligations.AdvanceEqualsStepping : Prop :=
  ∀ (delta : U64) (s : State) (g : GeneratorState), s.gen = some g →
    exec (.advance delta) s = .next
      { s with
        gen := some { state := (fun x => lcgStep s.config.mult x g.inc)^[delta.toNat] g.state, inc := g.inc }
        phase := .responding ⟨.ok, 0⟩ } ∧
    (stateAfter (.advance delta) s).gen = ((stateAfter .next)^[delta.toNat] s).gen ∧
    stateAfter .next (stateAfter (.advance delta) s) = (stateAfter .next)^[delta.toNat + 1] s

/-- R73: `delta = 0` changes no register, is still checked against `seeded` and still answered. -/
def Obligations.AdvanceByZeroIsTheIdentity : Prop :=
  ∀ s : State,
    (s.gen.isSome = true → exec (.advance 0) s = .next { s with phase := .responding ⟨.ok, 0⟩ }) ∧
    (s.gen = none → exec (.advance 0) s = .next { s with phase := .responding ⟨.errUnseeded, 0⟩ }) ∧
    ∀ inc : U64, affinePow s.config.mult inc 0 = (1, 0)

/-- R74, for odd `MULT`: jumping back by `k` undoes `k` NEXT commands, and `advance -1` after SEED leaves `inc + initial_state`. -/
def Obligations.AdvanceJumpsBack : Prop :=
  ∀ s : State, s.config.mult.getLsbD 0 = true →
    (∀ k : U64, s.gen.isSome = true → (stateAfter (.advance (-k)) ((stateAfter .next)^[k.toNat] s)).gen = s.gen) ∧
    ∀ initialState selector : U64,
      (stateAfter (.advance (-1)) (stateAfter (.seed initialState selector) s)).gen =
        some { state := (2 * selector + 1) + initialState, inc := 2 * selector + 1 }

/-- R75: `advance(d)` then `advance(-d)` is the identity on the GeneratorState for odd `MULT`, for every 64-bit `d`; with
`MULT mod 4 = 1` and odd `inc` a jump by 2^63 flips bit 63 of `state` and nothing else. -/
def Obligations.AdvanceIsInvertible : Prop :=
  ∀ (s : State) (g : GeneratorState), s.gen = some g →
    (s.config.mult.getLsbD 0 = true →
      (∀ d : U64, (stateAfter (.advance (-d)) (stateAfter (.advance d) s)).gen = s.gen) ∧
      (stateAfter (.advance 0x8000000000000000) (stateAfter (.advance 0x8000000000000000) s)).gen = s.gen) ∧
    (FullPeriod s.config.mult → g.inc.getLsbD 0 = true →
      affinePow s.config.mult g.inc 0x8000000000000000 = (1, 0x8000000000000000) ∧
      (stateAfter (.advance 0x8000000000000000) s).gen = some { state := g.state ^^^ 0x8000000000000000, inc := g.inc })

/-- R76: `delta = 1` is the step of one NEXT; two jumps make one by the sum of their distances. Where the sum passes 2^64 this
needs an odd `MULT` (R59), a premise R76 does not repeat. -/
def Obligations.AdvancesCompose : Prop :=
  ∀ (s : State) (d1 d2 : U64), s.gen.isSome = true →
    (stateAfter (.advance 1) s).gen = (stateAfter .next s).gen ∧
    (d1.toNat + d2.toNat < 2 ^ 64 ∨ s.config.mult.getLsbD 0 = true →
      (stateAfter (.advance d2) (stateAfter (.advance d1) s)).gen = (stateAfter (.advance (d1 + d2)) s).gen)

/-! BOUNDED (44_bounded_next.md) -/

/-- R79: BOUNDED with `bound = 0` behaves exactly as NEXT, in every state; on a seeded block it is one raw draw. -/
def Obligations.BoundedByZeroIsNext : Prop :=
  ∀ s : State,
    exec (.bounded 0) s = exec .next s ∧
    ∀ g, s.gen = some g →
      exec (.bounded 0) s = .next
        { s with
          gen := some { state := lcgStep s.config.mult g.state g.inc, inc := g.inc }
          phase := .responding ⟨.ok, xshRr g.state⟩ }

/-- R80: the threshold and its facts. -/
def Obligations.ThresholdFacts : Prop :=
  ∀ bound : U32, bound ≠ 0 →
    (threshold bound).toNat = ((2 ^ 32 - bound.toNat) % 2 ^ 32) % bound.toNat ∧
    (threshold bound).toNat = 2 ^ 32 % bound.toNat ∧
    threshold bound < bound ∧
    (threshold bound).toNat ≤ 2 ^ 32 - bound.toNat ∧
    (threshold bound).toNat ≤ 2 ^ 31 - 1 ∧
    ((threshold bound).toNat = 2 ^ 31 - 1 ↔ bound.toNat = 2 ^ 31 + 1) ∧
    (threshold bound = 0 ↔ ∃ k, k < 32 ∧ bound.toNat = 2 ^ k) ∧
    (2 ^ 31 < bound.toNat → (threshold bound).toNat = 2 ^ 32 - bound.toNat)

/-- R81: with `k` the least index whose candidate is at or above the threshold, the response is `c_k mod bound` and `state` is
`s_(k+1)`; nothing else changes. No limit on `k` is assumed. -/
def Obligations.BoundedAnswersTheFirstAccepted : Prop :=
  ∀ (bound : U32) (s : State) (g : GeneratorState) (k : Nat),
    bound ≠ 0 → s.gen = some g → FirstAccepted bound s.config.mult g k →
    exec (.bounded bound) s = .next
      { s with
        gen := some { state := (fun x => lcgStep s.config.mult x g.inc)^[k + 1] g.state, inc := g.inc }
        phase := .responding ⟨.ok, candidate s.config.mult g k % bound⟩ }

/-- R81 and R87: when no candidate is ever accepted there is no response and no value: the block stays in its loop, busy. -/
def Obligations.BoundedWithoutCandidateNeverResponds : Prop :=
  ∀ (bound : U32) (s : State) (g : GeneratorState),
    bound ≠ 0 → s.gen = some g → (∀ j, candidate s.config.mult g j < threshold bound) →
    exec (.bounded bound) s = .next { s with phase := .drawing bound } ∧
    ∀ n, (∀ p, p ∈ s.inputs → p.rst = false) →
      ∃ t, instants n { s with phase := .drawing bound } = .next t ∧
        t.rspValid = false ∧ t.cmdReady = false ∧ t.delivered = s.delivered

/-- R82: a result of BOUNDED with a non-zero bound is below the bound. -/
def Obligations.BoundedResultIsBelowTheBound : Prop :=
  ∀ (bound : U32) (s t : State) (v : U32), bound ≠ 0 →
    exec (.bounded bound) s = .next t → t.response = some ⟨.ok, v⟩ → v < bound

/-- R83: a BOUNDED that drew `n` candidates leaves the GeneratorState where `n` NEXT commands leave it. -/
def Obligations.BoundedAdvancesOneStepPerDraw : Prop :=
  ∀ (bound : U32) (s : State) (g : GeneratorState) (k : Nat), s.gen = some g →
    (bound ≠ 0 → FirstAccepted bound s.config.mult g k →
      (stateAfter (.bounded bound) s).gen = ((stateAfter .next)^[k + 1] s).gen) ∧
    (stateAfter (.bounded 0) s).gen = (stateAfter .next s).gen

/-- R84, R107, R114, on every state that meets the invariant: a BOUNDED in its loop is left only by reset; at every other instant it
draws and rejects one candidate, stays busy and answers nothing. The phase and its draw at each instant are the model's form of a
loop that never ends (log entry 6, DESIGN CHOICE); the signals after a draw are the phase's also if `rst` is 1 next (log entry 15). -/
def Obligations.LoopIsLeftOnlyByReset : Prop :=
  ∀ (s t : State) (bound : U32), s.Inv → s.phase = .drawing bound → step s = .next t →
    (s.pins.rst = true ∧ t.phase = .idle ∧ t.gen = none ∧ t.delivered = s.delivered) ∨
    (s.pins.rst = false ∧ t.phase = .drawing bound ∧ t.rspValid = false ∧ t.cmdReady = false ∧ t.delivered = s.delivered ∧
      ∃ g, s.gen = some g ∧ candidate s.config.mult g 0 < threshold bound ∧
        t.gen = some { state := lcgStep s.config.mult g.state g.inc, inc := g.inc })

/-- R85 with R55: every result is that of exactly `floor(2^32 / bound)` candidates, and of equally many states. -/
def Obligations.BoundedIsUnbiased : Prop :=
  ∀ bound r : U32, bound ≠ 0 → r < bound →
    2 ^ 32 - (threshold bound).toNat = bound.toNat * (2 ^ 32 / bound.toNat) ∧
    Nat.card { c : U32 // acceptCandidate bound c = some r } = 2 ^ 32 / bound.toNat ∧
    Nat.card { x : U64 // acceptCandidate bound (xshRr x) = some r } = 2 ^ 32 / bound.toNat * 2 ^ 32

/-- R87 under the premise of R5: the loop ends within `threshold * 2^32 + 1` draws, and the command responds. -/
def Obligations.BoundedTerminates : Prop :=
  ∀ (bound : U32) (s : State) (g : GeneratorState),
    bound ≠ 0 → s.gen = some g → FullPeriod s.config.mult → g.inc.getLsbD 0 = true →
    ∃ k, FirstAccepted bound s.config.mult g k ∧
      k + 1 ≤ (threshold bound).toNat * 2 ^ 32 + 1 ∧ k + 1 ≤ (2 ^ 31 - 1) * 2 ^ 32 + 1 ∧
      (stateAfter (.bounded bound) s).response = some ⟨.ok, candidate s.config.mult g k % bound⟩

/-- R88: corner cases of BOUNDED, as commands on a seeded block (bound 1, powers of two, the example with bound 3) and of one
candidate. -/
def Obligations.BoundedCornerCases : Prop :=
  (∀ (s : State) (g : GeneratorState), s.gen = some g →
    exec (.bounded 1) s = .next
      { s with
        gen := some { state := lcgStep s.config.mult g.state g.inc, inc := g.inc }
        phase := .responding ⟨.ok, 0⟩ }) ∧
  (∀ (s : State) (g : GeneratorState) (k : Nat), s.gen = some g → k < 32 →
    exec (.bounded (BitVec.ofNat 32 (2 ^ k))) s = .next
      { s with
        gen := some { state := lcgStep s.config.mult g.state g.inc, inc := g.inc }
        phase := .responding ⟨.ok, BitVec.ofNat 32 ((xshRr g.state).toNat % 2 ^ k)⟩ }) ∧
  (∀ c : U32, acceptCandidate 1 c = some 0) ∧
  (∀ (k : Nat) (c : U32), k < 32 → ∃ v, acceptCandidate (BitVec.ofNat 32 (2 ^ k)) c = some v ∧ v.toNat = c.toNat % 2 ^ k) ∧
  (∀ c : U32, acceptCandidate 0xFFFFFFFF c = none ↔ c = 0) ∧
  acceptCandidate 0xFFFFFFFF 0xFFFFFFFF = some 0 ∧
  (∀ c : U32, acceptCandidate 0x80000001 c = none ↔ c < 0x7FFFFFFF) ∧
  acceptCandidate 0x80000001 0x7FFFFFFF = some 0x7FFFFFFF ∧ acceptCandidate 0x80000001 0x80000001 = some 0 ∧
  candidate defaultMult ⟨0, 1⟩ 2 = 0xE4C14788 ∧
  (stateAfter (.bounded 3) { State.reset with gen := some ⟨0, 1⟩ }).response = some ⟨.ok, 1⟩ ∧
  (stateAfter (.bounded 3) { State.reset with gen := some ⟨0, 1⟩ }).gen = some ⟨0xC0B18CCF4E252D17, 1⟩

/-! Faults (60_exceptions.md) -/

/-- R90: the only effect of NEXT, BOUNDED or ADVANCE on an unseeded block is the response (1, 0); SEED never raises it. -/
def Obligations.UnseededCommandsFault : Prop :=
  (∀ (s : State) (bound : U32) (delta : U64), s.gen = none →
    exec .next s = .next { s with phase := .responding ⟨.errUnseeded, 0⟩ } ∧
    exec (.bounded bound) s = .next { s with phase := .responding ⟨.errUnseeded, 0⟩ } ∧
    exec (.advance delta) s = .next { s with phase := .responding ⟨.errUnseeded, 0⟩ }) ∧
  ∀ (s : State) (a b : U64), (stateAfter (.seed a b) s).response = some ⟨.ok, 0⟩

/-- R91, R40: the status is 1 exactly for NEXT, BOUNDED and ADVANCE on an unseeded block, and then the data is 0; the codes. -/
def Obligations.StatusTellsUnseeded : Prop :=
  (∀ (i : Instr) (s t : State) (r : Response), exec i s = .next t → t.response = some r →
    (r.word.getLsbD 32 = true ↔ s.seeded = false ∧ ∀ a b, i ≠ .seed a b) ∧
    (r.word.getLsbD 32 = true → r.word = 0x100000000) ∧
    r.word.setWidth 32 = r.data) ∧
  (∀ d : U32, (Response.word ⟨.ok, d⟩).toNat = d.toNat)

/-- R96, R97: the fault is not sticky and leaves no trace: after it every command does what it does without it, each NEXT, BOUNDED
and ADVANCE faults, each SEED succeeds. -/
def Obligations.FaultIsNotSticky : Prop :=
  ∀ (s : State) (i : Instr), s.gen = none → (∀ x y, i ≠ .seed x y) →
    (stateAfter i s).gen = none ∧
    (∀ j : Instr, exec j (stateAfter i s) = exec j s ∧ stateAfter j (stateAfter i s) = stateAfter j s) ∧
    (∀ j : Instr, (∀ x y, j ≠ .seed x y) → (stateAfter j (stateAfter i s)).response = some ⟨.errUnseeded, 0⟩) ∧
    ∀ a b : U64,
      (stateAfter (.seed a b) (stateAfter i s)).response = some ⟨.ok, 0⟩ ∧
      (stateAfter (.seed a b) (stateAfter i s)).seeded = true

/-! The ports, reset and the whole machine -/

/-- R29, R35: an idle block with a command presented and no reset accepts it and runs the command of that word, at the state with
this instant's sample used up. That the accepting instant also executes the command is the model's choice (log entry 5, DESIGN
CHOICE: R115 and R116 give a command no duration). -/
def Obligations.StepRunsTheDecodedCommand : Prop :=
  ∀ (s : State) (p : Pins) (rest : List Pins),
    s.inputs = p :: rest → s.phase = .idle → p.rst = false → p.cmdValid = true →
    step s = exec (decode (commandWord p.cmdOp p.cmdA p.cmdB)) { s with inputs := rest }

/-- A command word placed with `withFetchWord` is what the next step runs (log entry 10: the model's own form of a fetch; log entry
5: acceptance and execution in one step). -/
def Obligations.FetchedWordRunsNext : Prop :=
  ∀ (s : State) (nbits w : Nat) (i : Instr), decodeTableWord nbits w = some i →
    step (s.withFetchWord nbits w) = exec i { s with phase := .idle }

/-- R35: without `rst` and without `cmd_valid` an idle block ignores the other command signals and keeps everything (R104). -/
def Obligations.IdleBlockKeepsItsState : Prop :=
  ∀ (s : State) (p : Pins) (rest : List Pins), s.inputs = p :: rest → s.phase = .idle → p.rst = false → p.cmdValid = false →
    step s = .next { s with inputs := rest }

/-- R105, R107: reset, whatever the block was doing. The model's choices in it: nothing is accepted or delivered in the reset
instant (log entry 8, DEDUCED), the record of delivered responses stays (log entry 9, DESIGN CHOICE), and `cmd_ready = 1` holds in
the state entered even if `rst` is still 1 at the next instant, where R105 gives the signal only once reset is released (log entry
15, DESIGN CHOICE). -/
def Obligations.ResetOverridesEverything : Prop :=
  ∀ (s : State) (p : Pins) (rest : List Pins), s.inputs = p :: rest → p.rst = true →
    ∃ t, step s = .next t ∧ t = { s with gen := none, phase := .idle, inputs := rest } ∧
      t.seeded = false ∧ t.rspValid = false ∧ t.cmdReady = true

/-- R106: the values the spec gives for the state after reset. -/
def Obligations.ResetStateIsUnseededAndReady : Prop :=
  State.reset.seeded = false ∧ State.reset.gen = none ∧ State.reset.rspValid = false ∧ State.reset.cmdReady = true

/-- R112: every accepted command leaves the block busy, and a busy block takes no notice of the command signals. That the block
shows `cmd_ready = 0` then also while `rst = 1` is the model's choice (log entry 15). -/
def Obligations.BusyBlockAcceptsNoCommand : Prop :=
  (∀ (i : Instr) (s t : State), exec i s = .next t → t.cmdReady = false) ∧
  ∀ (s : State) (p q : Pins), s.cmdReady = false → p.rst = q.rst → p.rspReady = q.rspReady → instant p s = instant q s

/-- R35, R41, R112: the response is held unchanged until delivery; after delivery the block may accept the next command. The model's
choices in it: a command presented in the delivery instant is not accepted in it (log entry 14, DEDUCED), the signals after the
instant are the phase's even if `rst` is 1 at the next one (log entry 15, DESIGN CHOICE), and the delivered responses are recorded
(log entry 9, DESIGN CHOICE). -/
def Obligations.ResponseIsHeldUntilDelivery : Prop :=
  ∀ (s : State) (r : Response) (p : Pins) (rest : List Pins), s.inputs = p :: rest → s.response = some r → p.rst = false →
    (p.rspReady = false → ∃ t, step s = .next t ∧ t = { s with inputs := rest } ∧ t.response = some r) ∧
    (p.rspReady = true →
      ∃ t, step s = .next t ∧ t.delivered = s.delivered ++ [r] ∧ t.rspValid = false ∧ t.cmdReady = true ∧ t.gen = s.gen ∧
        t.config = s.config ∧ t.inputs = rest)

/-- R117: a command that has not responded is a BOUNDED with a non-zero bound on a seeded block none of whose candidates is ever
accepted; every other command responds. -/
def Obligations.OnlyAnEndlessLoopDelaysTheResponse : Prop :=
  ∀ (i : Instr) (s : State),
    (stateAfter i s).rspValid = true ∨
    ∃ bound g, i = .bounded bound ∧ bound ≠ 0 ∧ s.gen = some g ∧ ∀ j, candidate s.config.mult g j < threshold bound

/-- R30: a response leaves only once, when the host takes the one that waits; what was delivered is never changed. -/
def Obligations.DeliveredOnlyGrowsByTheWaitingResponse : Prop :=
  ∀ s t : State, step s = .next t →
    t.delivered = s.delivered ∨
    ∃ r, s.response = some r ∧ s.pins.rspReady = true ∧ s.pins.rst = false ∧ t.delivered = s.delivered ++ [r] ∧
      t.response = none

/-- R32: with a host that issues commands and takes each response, the block delivers the responses of the commands applied in
order, from every idle state. That a command takes two instants, one to accept and execute it and one to deliver its response, is
the model's choice (log entry 5, DESIGN CHOICE). -/
def Obligations.PortIsASequentialObject : Prop :=
  ∀ (is : List Instr) (s t : State) (rs : List Response) (rest : List Pins),
    s.phase = .idle → s.inputs = commandSamples is ++ rest → answers is s = some (rs, t) →
    instants (2 * is.length) s = .next { t with inputs := rest, delivered := s.delivered ++ rs }

/-- R119: run from an idle block, a transcript is conformant exactly when its commands, applied in order, all respond and their
responses are line by line the expected ones; a command that never responds leaves the run unended and so the transcript not
conformant. The run gives each line two instants (log entry 5), and its result is the record of log entry 9. -/
def Obligations.TranscriptConformsWhenItsResponsesDo : Prop :=
  ∀ (ls : List Line) (s : State), s.phase = .idle →
    (Conformant ls s ↔ ∃ t, answers (ls.map lineCommand) s = some (ls.map lineExpected, t))

/-- R42, R92: no state and no sample stops the machine. -/
def Obligations.NoStepStops : Prop :=
  ∀ s : State, ∃ t, step s = .next t

/-- The invariant holds after reset. -/
def Obligations.InvariantAtReset : Prop :=
  State.reset.Inv

/-- R14: every step keeps `inc` odd while `seeded = 1`. The other half of the invariant is about the model's own phase of a loop that
never ends (log entry 6, DESIGN CHOICE): its bound is not zero, a GeneratorState exists, and no candidate will ever be accepted. -/
def Obligations.StepKeepsTheInvariant : Prop :=
  ∀ s t : State, s.Inv → step s = .next t → t.Inv

/-- R12: no step changes `MULT`, reset included. -/
def Obligations.MultiplierIsNeverWritten : Prop :=
  ∀ s t : State, step s = .next t → t.config = s.config

/-- R11, R13: `seeded` is cleared only by reset and set only by SEED; `inc` is written only by SEED. -/
def Obligations.OnlySeedAndResetTouchIncAndSeeded : Prop :=
  ∀ s t : State, step s = .next t →
    (∀ g, s.gen = some g →
      (s.pins.rst = true ∧ t.gen = none) ∨
      ∃ g', t.gen = some g' ∧
        (g'.inc = g.inc ∨ ∃ a b, s.phase = .idle ∧ s.pins.cmdValid = true ∧ decode s.pins.word = .seed a b ∧
          g'.inc = (b <<< 1) ||| (1 : U64))) ∧
    (s.gen = none → ∀ g', t.gen = some g' →
      ∃ a b, s.pins.rst = false ∧ s.phase = .idle ∧ s.pins.cmdValid = true ∧ decode s.pins.word = .seed a b ∧
        g'.inc = (b <<< 1) ||| (1 : U64))

/-- The frame of the commands SEED, NEXT, BOUNDED, ADVANCE: only the GeneratorState and the handshake change; only SEED writes
`inc` or `seeded` (R11, R13, R20); a non-SEED command on an unseeded block writes no state element (R90). -/
def Obligations.CommandFrame : Prop :=
  ∀ (i : Instr) (s t : State), exec i s = .next t →
    t.config = s.config ∧ t.inputs = s.inputs ∧ t.delivered = s.delivered ∧
    ((∀ a b, i ≠ .seed a b) →
      t.seeded = s.seeded ∧ t.gen.map GeneratorState.inc = s.gen.map GeneratorState.inc ∧ (s.gen = none → t.gen = none))

/-- R16: the response and the GeneratorState after a command are functions of (`state`, `inc`), `seeded`, `MULT` and the command. -/
def Obligations.GeneratorStateDeterminesTheFuture : Prop :=
  ∀ (i : Instr) (s s' : State), s.config = s'.config → s.gen = s'.gen →
    ∃ t t', exec i s = .next t ∧ exec i s' = .next t' ∧ t.gen = t'.gen ∧ t.phase = t'.phase
end

