-- ==== Sys2Proof/Laws/Encoding.lean ====
section
/-! SUPPORT. The fields of a command word, as numbers (30_encoding R36). -/

namespace Sys2Proof.Machine

/-- `CW = b * 2^66 + a * 2^2 + op` (R36). -/
theorem commandWord_toNat (op : BitVec 2) (a b : U64) :
    (commandWord op a b).toNat = b.toNat * 2 ^ 66 + a.toNat * 2 ^ 2 + op.toNat := by
  simp only [commandWord, BitVec.toNat_append]
  rw [← Nat.shiftLeft_add_eq_or_of_lt op.isLt, ← Nat.shiftLeft_add_eq_or_of_lt a.isLt, Nat.shiftLeft_eq, Nat.shiftLeft_eq]
  omega

theorem opField_toNat (cw : CommandWord) : (opField cw).toNat = cw.toNat % 2 ^ 2 := by
  simp [opField, BitVec.extractLsb'_toNat]

theorem aField_toNat (cw : CommandWord) : (aField cw).toNat = cw.toNat / 2 ^ 2 % 2 ^ 64 := by
  simp [aField, BitVec.extractLsb'_toNat, Nat.shiftRight_eq_div_pow]

theorem bField_toNat (cw : CommandWord) : (bField cw).toNat = cw.toNat / 2 ^ 66 % 2 ^ 64 := by
  simp [bField, BitVec.extractLsb'_toNat, Nat.shiftRight_eq_div_pow]

/-- A command word is made of its fields. -/
theorem commandWord_fields (cw : CommandWord) : commandWord (opField cw) (aField cw) (bField cw) = cw := by
  apply BitVec.eq_of_toNat_eq
  have h := cw.isLt
  rw [commandWord_toNat, opField_toNat, aField_toNat, bField_toNat]
  omega

theorem opField_commandWord (op : BitVec 2) (a b : U64) : opField (commandWord op a b) = op := by
  apply BitVec.eq_of_toNat_eq
  have h := op.isLt
  rw [opField_toNat, commandWord_toNat]
  omega

theorem aField_commandWord (op : BitVec 2) (a b : U64) : aField (commandWord op a b) = a := by
  apply BitVec.eq_of_toNat_eq
  have h := op.isLt
  have h' := a.isLt
  rw [aField_toNat, commandWord_toNat]
  omega

theorem bField_commandWord (op : BitVec 2) (a b : U64) : bField (commandWord op a b) = b := by
  apply BitVec.eq_of_toNat_eq
  have h := op.isLt
  have h' := a.isLt
  have h2 := b.isLt
  rw [bField_toNat, commandWord_toNat]
  omega

end Sys2Proof.Machine
end

