-- ==== Sys2Proof/Laws/State.lean ====
section
/-! SUPPORT. One lemma per field for each operation that updates the state: what the field is afterwards. -/

namespace Sys2Proof.Machine

@[simp] theorem State.popInput_config (s : State) : s.popInput.config = s.config := rfl

@[simp] theorem State.popInput_gen (s : State) : s.popInput.gen = s.gen := rfl

@[simp] theorem State.popInput_phase (s : State) : s.popInput.phase = s.phase := rfl

@[simp] theorem State.popInput_inputs (s : State) : s.popInput.inputs = s.inputs.tail := rfl

@[simp] theorem State.popInput_delivered (s : State) : s.popInput.delivered = s.delivered := rfl

@[simp] theorem State.presenting_config (s : State) (cw : CommandWord) : (s.presenting cw).config = s.config := rfl

@[simp] theorem State.presenting_gen (s : State) (cw : CommandWord) : (s.presenting cw).gen = s.gen := rfl

@[simp] theorem State.presenting_phase (s : State) (cw : CommandWord) : (s.presenting cw).phase = .idle := rfl

@[simp] theorem State.presenting_inputs (s : State) (cw : CommandWord) : (s.presenting cw).inputs = Pins.present cw :: s.inputs := rfl

@[simp] theorem State.presenting_delivered (s : State) (cw : CommandWord) : (s.presenting cw).delivered = s.delivered := rfl

@[simp] theorem respond_config (st : Status) (d : U32) (s : State) : (respond st d s).config = s.config := rfl

@[simp] theorem respond_gen (st : Status) (d : U32) (s : State) : (respond st d s).gen = s.gen := rfl

@[simp] theorem respond_phase (st : Status) (d : U32) (s : State) : (respond st d s).phase = .responding { status := st, data := d } := rfl

@[simp] theorem respond_inputs (st : Status) (d : U32) (s : State) : (respond st d s).inputs = s.inputs := rfl

@[simp] theorem respond_delivered (st : Status) (d : U32) (s : State) : (respond st d s).delivered = s.delivered := rfl

@[simp] theorem raiseUnseeded_config (s : State) : (raiseUnseeded s).config = s.config := rfl

@[simp] theorem raiseUnseeded_gen (s : State) : (raiseUnseeded s).gen = s.gen := rfl

@[simp] theorem raiseUnseeded_phase (s : State) : (raiseUnseeded s).phase = .responding { status := .errUnseeded, data := 0 } := rfl

@[simp] theorem raiseUnseeded_inputs (s : State) : (raiseUnseeded s).inputs = s.inputs := rfl

@[simp] theorem raiseUnseeded_delivered (s : State) : (raiseUnseeded s).delivered = s.delivered := rfl

@[simp] theorem deliver_config (r : Response) (s : State) : (deliver r s).config = s.config := rfl

@[simp] theorem deliver_gen (r : Response) (s : State) : (deliver r s).gen = s.gen := rfl

@[simp] theorem deliver_phase (r : Response) (s : State) : (deliver r s).phase = .idle := rfl

@[simp] theorem deliver_inputs (r : Response) (s : State) : (deliver r s).inputs = s.inputs := rfl

@[simp] theorem deliver_delivered (r : Response) (s : State) : (deliver r s).delivered = s.delivered ++ [r] := rfl

@[simp] theorem State.setGen_config (s : State) (g : GeneratorState) : (s.setGen g).config = s.config := rfl

@[simp] theorem State.setGen_gen (s : State) (g : GeneratorState) : (s.setGen g).gen = some g := rfl

@[simp] theorem State.setGen_phase (s : State) (g : GeneratorState) : (s.setGen g).phase = s.phase := rfl

@[simp] theorem State.setGen_inputs (s : State) (g : GeneratorState) : (s.setGen g).inputs = s.inputs := rfl

@[simp] theorem State.setGen_delivered (s : State) (g : GeneratorState) : (s.setGen g).delivered = s.delivered := rfl

@[simp] theorem applyReset_config (s : State) : (applyReset s).config = s.config := rfl

@[simp] theorem applyReset_gen (s : State) : (applyReset s).gen = none := rfl

@[simp] theorem applyReset_phase (s : State) : (applyReset s).phase = .idle := rfl

@[simp] theorem applyReset_inputs (s : State) : (applyReset s).inputs = s.inputs := rfl

@[simp] theorem applyReset_delivered (s : State) : (applyReset s).delivered = s.delivered := rfl

/-! The ports in each phase -/

theorem cmdReady_iff (s : State) : s.cmdReady = true ↔ s.phase = .idle := by
  cases h : s.phase <;> simp [State.cmdReady, h]

theorem response_eq_some_iff (s : State) (r : Response) : s.response = some r ↔ s.phase = .responding r := by
  cases h : s.phase <;> simp [State.response, h]

theorem rspValid_iff (s : State) : s.rspValid = true ↔ ∃ r, s.phase = .responding r := by
  cases h : s.phase <;> simp [State.rspValid, State.response, h]

/-- `RW = status ∥ data` as a number (R40). -/
theorem word_toNat (r : Response) : r.word.toNat = r.status.code.toNat * 2 ^ 32 + r.data.toNat := by
  simp only [Response.word, BitVec.toNat_append]
  rw [← Nat.shiftLeft_add_eq_or_of_lt r.data.isLt, Nat.shiftLeft_eq]

/-- Presenting a command word drives exactly that word. -/
theorem word_present (cw : CommandWord) : (Pins.present cw).word = cw :=
  commandWord_fields cw

@[simp] theorem pins_presenting (s : State) (cw : CommandWord) : (s.presenting cw).pins = Pins.present cw := rfl

@[simp] theorem popInput_presenting (s : State) (cw : CommandWord) :
    (s.presenting cw).popInput = { s with phase := .idle } := rfl

end Sys2Proof.Machine
end

