-- ==== Sys2Proof/Laws/Ops.lean ====
section
/-! SUPPORT. For each shared operation, what it can do, said once. -/

namespace Sys2Proof.Machine

/-! The LCG orbit -/

@[simp] theorem orbit_zero (mult : U64) (g : GeneratorState) : orbit mult g 0 = g.state := rfl

theorem orbit_succ (mult : U64) (g : GeneratorState) (j : Nat) :
    orbit mult g (j + 1) = lcgStep mult (orbit mult g j) g.inc := by
  simp only [orbit, Function.iterate_succ_apply']

theorem orbit_add (mult : U64) (g : GeneratorState) (j k : Nat) :
    orbit mult g (j + k) = orbit mult (g.after mult j) k := by
  simp only [orbit, GeneratorState.after, Nat.add_comm j k, Function.iterate_add_apply]

theorem candidate_zero (mult : U64) (g : GeneratorState) : candidate mult g 0 = xshRr g.state := rfl

theorem candidate_after (mult : U64) (g : GeneratorState) (j k : Nat) :
    candidate mult (g.after mult j) k = candidate mult g (j + k) := by
  simp only [candidate, orbit_add]

@[simp] theorem after_zero (mult : U64) (g : GeneratorState) : g.after mult 0 = g := rfl

theorem after_after (mult : U64) (g : GeneratorState) (j k : Nat) :
    (g.after mult j).after mult k = g.after mult (j + k) := by
  simp only [GeneratorState.after, orbit_add]

@[simp] theorem after_inc (mult : U64) (g : GeneratorState) (j : Nat) : (g.after mult j).inc = g.inc := rfl

/-- A draw answers candidate 0 and moves one step. -/
theorem draw_eq (mult : U64) (g : GeneratorState) : draw mult g = (candidate mult g 0, g.after mult 1) := rfl

/-! The test on `seeded` -/

theorem whenSeeded_none {s : State} (h : s.gen = none) (body : GeneratorState → State) :
    whenSeeded s body = raiseUnseeded s := by
  simp only [whenSeeded, h]

theorem whenSeeded_some {s : State} {g : GeneratorState} (h : s.gen = some g) (body : GeneratorState → State) :
    whenSeeded s body = body g := by
  simp only [whenSeeded, h]

/-! The rejection loop -/

theorem acceptCandidate_eq_none_iff (bound c : U32) :
    acceptCandidate bound c = none ↔ bound ≠ 0 ∧ c < threshold bound := by
  unfold acceptCandidate
  split
  · simp_all
  · split
    · next h => simp [BitVec.not_lt.mpr h]
    · next h => simp_all [BitVec.not_le]

/-- The loop answers exactly what its first accepted candidate gives, if there is one among its draws. -/
theorem drawUntil_eq_some_iff (bound : U32) (mult : U64) (fuel : Nat) (g : GeneratorState) (v : U32) (g' : GeneratorState) :
    drawUntil bound mult fuel g = some (v, g') ↔
      ∃ k, k < fuel ∧ acceptCandidate bound (candidate mult g k) = some v ∧ g' = g.after mult (k + 1) ∧
        ∀ j, j < k → acceptCandidate bound (candidate mult g j) = none := by
  induction fuel generalizing g with
  | zero => simp [drawUntil]
  | succ n ih =>
    rw [drawUntil, draw_eq]
    cases hc : acceptCandidate bound (candidate mult g 0) with
    | some w =>
      simp only [hc, Option.some.injEq, Prod.mk.injEq]
      constructor
      · rintro ⟨rfl, rfl⟩
        exact ⟨0, by omega, hc, rfl, by omega⟩
      · rintro ⟨k, -, hk, rfl, hj⟩
        obtain rfl | h0 := Nat.eq_zero_or_pos k
        · rw [hc] at hk
          exact ⟨Option.some.inj hk, rfl⟩
        · have := hj 0 h0
          rw [hc] at this
          cases this
    | none =>
      simp only [hc, ih, candidate_after, after_after]
      constructor
      · rintro ⟨k, hk, ha, rfl, hj⟩
        refine ⟨k + 1, by omega, by rwa [Nat.add_comm k 1], by rw [Nat.add_comm (k + 1) 1], fun j hj' => ?_⟩
        obtain rfl | h0 := Nat.eq_zero_or_pos j
        · exact hc
        · have := hj (j - 1) (by omega)
          rwa [Nat.add_sub_cancel' h0] at this
      · rintro ⟨k, hk, ha, rfl, hj⟩
        obtain rfl | h0 := Nat.eq_zero_or_pos k
        · rw [hc] at ha
          cases ha
        · refine ⟨k - 1, by omega, by rwa [Nat.add_sub_cancel' h0], by rw [Nat.sub_add_cancel h0, Nat.add_comm],
            fun j hj' => hj (1 + j) (by omega)⟩

/-- The loop gives up only when every one of its draws was rejected. -/
theorem drawUntil_eq_none_iff (bound : U32) (mult : U64) (fuel : Nat) (g : GeneratorState) :
    drawUntil bound mult fuel g = none ↔ ∀ j, j < fuel → acceptCandidate bound (candidate mult g j) = none := by
  induction fuel generalizing g with
  | zero => simp [drawUntil]
  | succ n ih =>
    rw [drawUntil, draw_eq]
    cases hc : acceptCandidate bound (candidate mult g 0) with
    | some w =>
      simp only [hc, reduceCtorEq, false_iff]
      intro h
      have := h 0 (by omega)
      rw [hc] at this
      cases this
    | none =>
      simp only [hc, ih, candidate_after]
      constructor
      · intro h j hj
        obtain rfl | h0 := Nat.eq_zero_or_pos j
        · exact hc
        · have := h (j - 1) (by omega)
          rwa [Nat.add_sub_cancel' h0] at this
      · intro h j hj
        exact h (1 + j) (by omega)

/-- Two equal states of the orbit have the same states after them. -/
theorem orbit_add_congr {mult : U64} {g : GeneratorState} {i j : Nat} (h : orbit mult g i = orbit mult g j) (k : Nat) :
    orbit mult g (i + k) = orbit mult g (j + k) := by
  simp only [orbit_add, GeneratorState.after, h]

/-- Among the first `drawLimit + 1` states of an orbit two are equal: `state` has only `drawLimit` values. -/
theorem orbit_repeats (mult : U64) (g : GeneratorState) :
    ∃ i j, i < j ∧ j ≤ drawLimit ∧ orbit mult g i = orbit mult g j := by
  by_contra hne
  have inj : Function.Injective fun i : Fin (2 ^ 64 + 1) => (orbit mult g i).toFin := by
    intro a b hab
    have hab' : orbit mult g a = orbit mult g b := BitVec.toFin_inj.mp hab
    rcases Nat.lt_trichotomy a b with h | h | h
    · exact absurd ⟨a, b, h, Nat.lt_succ_iff.mp b.isLt, hab'⟩ hne
    · exact Fin.ext h
    · exact absurd ⟨b, a, h, Nat.lt_succ_iff.mp a.isLt, hab'.symm⟩ hne
  have := Fintype.card_le_of_injective _ inj
  simp at this

/-- Every state of an orbit is one of its first `drawLimit` states. -/
theorem orbit_mem_limit (mult : U64) (g : GeneratorState) (n : Nat) :
    ∃ k, k < drawLimit ∧ orbit mult g k = orbit mult g n := by
  obtain ⟨i, j, hij, hj, he⟩ := orbit_repeats mult g
  induction n using Nat.strong_induction_on with
  | _ n ih =>
    by_cases hn : n < drawLimit
    · exact ⟨n, hn, rfl⟩
    · obtain ⟨k, hk, e⟩ := ih (i + (n - j)) (by omega)
      refine ⟨k, hk, e.trans ?_⟩
      rw [orbit_add_congr he, Nat.add_sub_cancel' (by omega)]

/-- The limit of the loop cuts no loop short: it gives up exactly when no candidate is ever accepted (log entry 6). -/
theorem drawUntil_limit_eq_none_iff (bound : U32) (mult : U64) (g : GeneratorState) :
    drawUntil bound mult drawLimit g = none ↔ ∀ j, acceptCandidate bound (candidate mult g j) = none := by
  rw [drawUntil_eq_none_iff]
  refine ⟨fun h j => ?_, fun h j _ => h j⟩
  obtain ⟨k, hk, e⟩ := orbit_mem_limit mult g j
  rw [candidate, ← e]
  exact h k hk

/-- One draw in the loop: the command ends with its response, or the loop goes on one step further; without a GeneratorState
nothing happens. -/
theorem loopDraw_cases (bound : U32) (s : State) :
    (s.gen = none ∧ loopDraw bound s = s) ∨
    ∃ g, s.gen = some g ∧
      ((∃ v, acceptCandidate bound (candidate s.config.mult g 0) = some v ∧
        loopDraw bound s = respond .ok v (s.setGen (g.after s.config.mult 1))) ∨
      (acceptCandidate bound (candidate s.config.mult g 0) = none ∧
        loopDraw bound s = s.setGen (g.after s.config.mult 1))) := by
  unfold loopDraw
  cases hg : s.gen with
  | none => exact .inl ⟨rfl, rfl⟩
  | some g =>
    refine .inr ⟨g, rfl, ?_⟩
    simp only [draw_eq]
    cases hc : acceptCandidate bound (candidate s.config.mult g 0) with
    | some v => exact .inl ⟨v, rfl, rfl⟩
    | none => exact .inr ⟨rfl, rfl⟩

/-! The GeneratorState operations -/

@[simp] theorem jump_inc (mult delta : U64) (g : GeneratorState) : (jump mult delta g).inc = g.inc := rfl

theorem jump_state (mult delta : U64) (g : GeneratorState) :
    (jump mult delta g).state = (affinePow mult g.inc delta).1 * g.state + (affinePow mult g.inc delta).2 := rfl

@[simp] theorem seedGenerator_inc (mult a b : U64) : (seedGenerator mult a b).inc = (b <<< 1) ||| (1 : U64) := rfl

/-! The commands, in one line each -/

theorem exec_seed (a b : U64) (s : State) :
    exec (.seed a b) s = .next (respond .ok 0 (s.setGen (seedGenerator s.config.mult a b))) := rfl

theorem exec_next_seeded {s : State} {g : GeneratorState} (h : s.gen = some g) :
    exec .next s = .next (respond .ok (candidate s.config.mult g 0) (s.setGen (g.after s.config.mult 1))) := by
  simp only [exec, execNext, whenSeeded_some h, draw_eq]

theorem exec_advance_seeded (d : U64) {s : State} {g : GeneratorState} (h : s.gen = some g) :
    exec (.advance d) s = .next (respond .ok 0 (s.setGen (jump s.config.mult d g))) := by
  simp only [exec, execAdvance, whenSeeded_some h]

theorem exec_bounded_seeded (b : U32) {s : State} {g : GeneratorState} (h : s.gen = some g) :
    exec (.bounded b) s = .next (match drawUntil b s.config.mult drawLimit g with
      | some (value, g') => respond .ok value (s.setGen g')
      | none => { s with phase := .drawing b }) :=
  congrArg Host.Outcome.next (whenSeeded_some h _)

/-- What one command can do: its response is on the port, or it is a BOUNDED that stays in its loop. -/
theorem exec_cases (i : Instr) (s : State) :
    (∃ st d g, exec i s = .next (respond st d { s with gen := g })) ∨
    ∃ b, i = .bounded b ∧ s.gen.isSome ∧ exec i s = .next { s with phase := .drawing b } := by
  cases hg : s.gen with
  | none =>
    have hs : { s with gen := none } = s := by rw [← hg]
    cases i with
    | seed a b => exact .inl ⟨.ok, 0, some (seedGenerator s.config.mult a b), rfl⟩
    | next => exact .inl ⟨.errUnseeded, 0, none, by simp only [exec, execNext, whenSeeded_none hg, hs]; rfl⟩
    | bounded b => exact .inl ⟨.errUnseeded, 0, none, by simp only [exec, execBounded, whenSeeded_none hg, hs]; rfl⟩
    | advance d => exact .inl ⟨.errUnseeded, 0, none, by simp only [exec, execAdvance, whenSeeded_none hg, hs]; rfl⟩
  | some g =>
    cases i with
    | seed a b => exact .inl ⟨.ok, 0, some (seedGenerator s.config.mult a b), rfl⟩
    | next => exact .inl ⟨_, _, some (g.after s.config.mult 1), exec_next_seeded hg⟩
    | advance d => exact .inl ⟨_, _, some (jump s.config.mult d g), exec_advance_seeded d hg⟩
    | bounded b =>
      rw [exec_bounded_seeded b hg]
      cases drawUntil b s.config.mult drawLimit g with
      | some p => exact .inl ⟨.ok, p.1, some p.2, rfl⟩
      | none => exact .inr ⟨b, rfl, rfl, by simp only [← hg]⟩

/-! The step -/

/-- What one sampling instant can do. -/
theorem step_cases (s : State) :
    (s.pins.rst = true ∧ step s = .next (applyReset s.popInput)) ∨
    (s.pins.rst = false ∧ s.phase = .idle ∧ s.pins.cmdValid = true ∧ step s = exec (decode s.pins.word) s.popInput) ∨
    (s.pins.rst = false ∧ s.phase = .idle ∧ s.pins.cmdValid = false ∧ step s = .next s.popInput) ∨
    (∃ r, s.pins.rst = false ∧ s.phase = .responding r ∧ s.pins.rspReady = true ∧ step s = .next (deliver r s.popInput)) ∨
    (∃ r, s.pins.rst = false ∧ s.phase = .responding r ∧ s.pins.rspReady = false ∧ step s = .next s.popInput) ∨
    ∃ b, s.pins.rst = false ∧ s.phase = .drawing b ∧ step s = .next (loopDraw b s.popInput) := by
  cases hr : s.pins.rst with
  | true => exact .inl ⟨rfl, by simp [step, instant, hr]⟩
  | false =>
    refine .inr ?_
    cases hp : s.phase with
    | idle =>
      cases hv : s.pins.cmdValid with
      | true => exact .inl ⟨rfl, rfl, rfl, by simp [step, instant, hr, hp, hv]⟩
      | false => exact .inr (.inl ⟨rfl, rfl, rfl, by simp [step, instant, hr, hp, hv]⟩)
    | responding r =>
      cases hv : s.pins.rspReady with
      | true => exact .inr (.inr (.inl ⟨r, rfl, rfl, rfl, by simp [step, instant, hr, hp, hv]⟩))
      | false => exact .inr (.inr (.inr (.inl ⟨r, rfl, rfl, rfl, by simp [step, instant, hr, hp, hv]⟩)))
    | drawing b => exact .inr (.inr (.inr (.inr ⟨b, rfl, rfl, by simp [step, instant, hr, hp]⟩)))

/-! Runs -/

@[simp] theorem instants_zero (s : State) : instants 0 s = .next s := rfl

theorem run_succ (M : Host.Core) {s t : M.State} (k : Nat) (h : M.step s = .next t) : M.run (k + 1) s = M.run k t := by
  rw [Host.Core.run, h]

/-- A run is a step and the rest of the run. -/
theorem instants_succ {s t : State} (k : Nat) (h : step s = .next t) : instants (k + 1) s = instants k t :=
  run_succ core k h

/-- The state a command leaves is the one `exec` answers. -/
theorem stateAfter_eq {i : Instr} {s t : State} (h : exec i s = .next t) : stateAfter i s = t := by
  simp only [stateAfter, h]

end Sys2Proof.Machine
end

