-- ==== Sys2Proof/Laws/PerInstr.lean ====
section
/-! SUPPORT. Statements for all commands, made per constructor. -/

namespace Sys2Proof.Laws

open Machine

/-- The command word of a command carries the opcode of its row of spec/opcode_table.json (`match` under `mask` 0x3, R37) and 0 in
every bit R38 calls ignored (R39). -/
def TableRow.Statement : Instr → Prop
  | .seed a b => encode (.seed a b) &&& 3 = 0
  | .next => encode .next = 1
  | .bounded bound => encode (.bounded bound) &&& 3 = 2 ∧ encode (.bounded bound) < 2 ^ 34
  | .advance delta => encode (.advance delta) &&& 3 = 3 ∧ encode (.advance delta) < 2 ^ 66

theorem commandWord_and_three (op : BitVec 2) (a b : U64) : (commandWord op a b &&& 3).toNat = op.toNat := by
  have h := Nat.and_two_pow_sub_one_eq_mod (commandWord op a b).toNat 2
  rw [BitVec.toNat_and]
  have ho := op.isLt
  have : (3 : CommandWord).toNat = 2 ^ 2 - 1 := rfl
  rw [this, h, commandWord_toNat]
  omega

theorem TableRow.seed (a b : U64) : TableRow.Statement (.seed a b) :=
  BitVec.eq_of_toNat_eq (commandWord_and_three opSeed a b)

theorem TableRow.next : TableRow.Statement .next := by
  show encode .next = 1
  decide

theorem TableRow.bounded (bound : U32) : TableRow.Statement (.bounded bound) := by
  refine ⟨BitVec.eq_of_toNat_eq (commandWord_and_three opBounded _ _), ?_⟩
  have hb := bound.isLt
  simp only [BitVec.lt_def, encode, commandWord_toNat, boundToOperand, BitVec.toNat_setWidth]
  have ho := opBounded.isLt
  simp
  omega

theorem TableRow.advance (delta : U64) : TableRow.Statement (.advance delta) := by
  refine ⟨BitVec.eq_of_toNat_eq (commandWord_and_three opAdvance _ _), ?_⟩
  have hb := delta.isLt
  have ho := opAdvance.isLt
  simp only [BitVec.lt_def, encode, commandWord_toNat]
  simp
  omega

end Sys2Proof.Laws
end

