-- ==== Sys2Proof/Laws/Transcript.lean ====
section
/-! SUPPORT. What the text operations of the transcript do (30_encoding R44): cutting at a separator, and reading back a numeral. -/

namespace Sys2Proof.Machine

/-- A text with no separator is one piece. -/
theorem pieces_of_not_mem (sep : Char) (cs : List Char) (h : sep ∉ cs) : pieces sep cs = [cs] := by
  induction cs with
  | nil => rfl
  | cons c cs ih =>
    rw [List.mem_cons, not_or] at h
    rw [pieces, if_neg (Ne.symm h.1), ih h.2]

/-- Cutting at the first separator. -/
theorem pieces_append (sep : Char) (cs rest : List Char) (h : sep ∉ cs) :
    pieces sep (cs ++ sep :: rest) = cs :: pieces sep rest := by
  induction cs with
  | nil => simp [pieces]
  | cons c cs ih =>
    rw [List.mem_cons, not_or] at h
    rw [List.cons_append, pieces, if_neg (Ne.symm h.1), ih h.2]

/-- A digit written is the digit read, and is neither a separator nor a sign. -/
theorem digitChar_facts (d : Nat) (h : d < 10) :
    digitValue (digitChar d) = some d ∧ digitChar d ≠ ' ' ∧ digitChar d ≠ '\n' ∧ digitChar d ≠ '-' ∧
    (digitChar d = '0' ↔ d = 0) := by
  revert d
  decide

theorem parseDigits_append (acc : Nat) (cs ds : List Char) :
    parseDigits acc (cs ++ ds) = (parseDigits acc cs).bind fun n => parseDigits n ds := by
  induction cs generalizing acc with
  | nil => rfl
  | cons c cs ih =>
    rw [List.cons_append, parseDigits, parseDigits]
    cases digitValue c with
    | none => rfl
    | some d => exact ih _

/-- The digits of a number below `10 ^ fuel` are its numeral: not empty, a leading zero only for 0, read back as the number. -/
theorem printDigits_facts (fuel n : Nat) (h : n < 10 ^ (fuel + 1)) :
    parseDigits 0 (printDigits (fuel + 1) n) = some n ∧
    (∀ c, c ∈ printDigits (fuel + 1) n → ∃ d, d < 10 ∧ c = digitChar d) ∧
    ∃ d rest, d < 10 ∧ printDigits (fuel + 1) n = digitChar d :: rest ∧ (d = 0 → n = 0 ∧ rest = []) := by
  induction fuel generalizing n with
  | zero =>
    have hn : n < 10 := by simpa using h
    simp only [printDigits, if_pos hn]
    refine ⟨by simp [parseDigits, (digitChar_facts n hn).1], fun c hc => ⟨n, hn, by simpa using hc⟩, n, [], hn, rfl, fun h0 => ⟨h0, rfl⟩⟩
  | succ fuel ih =>
    rw [printDigits]
    by_cases hn : n < 10
    · simp only [if_pos hn]
      refine ⟨by simp [parseDigits, (digitChar_facts n hn).1], fun c hc => ⟨n, hn, by simpa using hc⟩, n, [], hn, rfl, fun h0 => ⟨h0, rfl⟩⟩
    · simp only [if_neg hn]
      have hm : n % 10 < 10 := Nat.mod_lt _ (by decide)
      obtain ⟨h1, h2, d, rest, hd, he, hz⟩ := ih (n / 10) (by rw [Nat.div_lt_iff_lt_mul (by decide)]; rw [pow_succ] at h; exact h)
      refine ⟨?_, fun c hc => ?_, d, rest ++ [digitChar (n % 10)], hd, by rw [he]; rfl, fun h0 => ?_⟩
      · rw [parseDigits_append, h1]
        simp only [Option.bind_some, parseDigits, (digitChar_facts _ hm).1, Option.some.injEq]
        omega
      · rcases List.mem_append.mp hc with hc | hc
        · exact h2 c hc
        · exact ⟨n % 10, hm, by simpa using hc⟩
      · have := (hz h0).1
        omega

/-- A numeral written is the number read, and holds no separator and no sign (R44). -/
theorem printNat_facts (n : Nat) (h : n < 2 ^ 64) :
    parseNat (printNat n) = some n ∧ ' ' ∉ printNat n ∧ '\n' ∉ printNat n ∧ '-' ∉ printNat n := by
  obtain ⟨h1, h2, d, rest, hd, he, hz⟩ := printDigits_facts 19 n (lt_of_lt_of_le h (by norm_num))
  have hp : printNat n = printDigits 20 n := rfl
  refine ⟨?_, fun hm => ?_, fun hm => ?_, fun hm => ?_⟩
  · rw [hp, he, parseNat]
    by_cases h0 : d = 0
    · obtain ⟨rfl, rfl⟩ := hz h0
      rw [if_pos ((digitChar_facts d hd).2.2.2.2.mpr h0), if_pos rfl]
    · rw [if_neg (fun hc => h0 ((digitChar_facts d hd).2.2.2.2.mp hc)), ← he, h1]
  · obtain ⟨d, hd, hc⟩ := h2 _ hm
    exact (digitChar_facts d hd).2.1 hc.symm
  · obtain ⟨d, hd, hc⟩ := h2 _ hm
    exact (digitChar_facts d hd).2.2.1 hc.symm
  · obtain ⟨d, hd, hc⟩ := h2 _ hm
    exact (digitChar_facts d hd).2.2.2.1 hc.symm

end Sys2Proof.Machine
end

