-- ==== Sys2Proof/Tests/Slice0.lean ====
section
/-! SUPPORT. The model's own tests. Every expected value is from spec/95_test_vectors.md (the section is named beside it) or from
the rule named; `I` and `D` are that file's marks. -/

namespace Sys2Proof.Tests

open Machine

/-! The decoder, on words written out from R36 and R37 (sections 2.8, R49's table) -/

theorem test_decode_seed : decode 0x000000000000000d800000000000000a8 = .seed 42 54 := by decide

theorem test_decode_next : decode 0x000000000000000000000000000000001 = .next := by decide

theorem test_decode_bounded : decode 0x00000000000000000000000000000001a = .bounded 6 := by decide

theorem test_decode_advance : decode 0x00000000000000003ffffffffffffffef = .advance 0xFFFFFFFFFFFFFFFB := by decide

theorem test_decode_seed_ones :
    decode 0x3fffffffffffffffffffffffffffffffc = .seed 0xFFFFFFFFFFFFFFFF 0xFFFFFFFFFFFFFFFF := by decide

/-- Junk in ignored bits (section 2.8, the last three rows). -/
theorem test_decode_ignored :
    decode 0x0048d159e26af37bf7ab6fbbf7ab6fbbd = .next ∧
    decode 0x3fffffffffffffffffffffffc0000001a = .bounded 6 ∧
    decode 0x3fffffffffffffffc0000000000000017 = .advance 5 := by decide

theorem test_encode :
    encode (.seed 42 54) = 0x000000000000000d800000000000000a8 ∧ encode (.bounded 0xFFFFFFFF) = 0x3fffffffe ∧
    encode .next = 1 ∧ encode (.advance 0xFFFFFFFFD555AAAB) = 0x3ffffffff5556aaaf := by decide

/-- 2^130 is no command word (R36). -/
theorem test_wf_word_refused : CommandWord.inRange (2 ^ 130) = false ∧ decodeTableWord 136 (2 ^ 130) = none := by decide

theorem test_table_word : decodeTableWord 136 (2 ^ 130 - 1) = some (.advance 0xFFFFFFFFFFFFFFFF) := by decide

/-! Ill-formed transcript lines: one for each check of `Line.wf` (R44, N16) -/

theorem test_wf_seed_state : (Line.seed (2 ^ 64) 0).wf = false := by decide

theorem test_wf_seed_selector : (Line.seed 0 (2 ^ 64)).wf = false := by decide

theorem test_wf_next : (Line.next (2 ^ 32)).wf = false := by decide

theorem test_wf_bound : (Line.nextBounded (2 ^ 32) 0).wf = false := by decide

theorem test_wf_result : (Line.nextBounded 0 (2 ^ 32)).wf = false := by decide

theorem test_wf_advance_high : (Line.advance 2147483648).wf = false := by decide

theorem test_wf_advance_low : (Line.advance (-2147483649)).wf = false := by decide

/-! Primitives (sections 2.1, 2.2, 2.3) -/

theorem test_rotr32 :
    rotr32 0x80000001 0 = 0x80000001 ∧ rotr32 0x80000001 1 = 0xc0000000 ∧ rotr32 0x80000001 31 = 0x00000003 ∧
    rotr32 0x12345678 4 = 0x81234567 := by decide

theorem test_xsh_rr :
    xshRr 0xffffffffffffffff = 0xfff00001 ∧ xshRr 0x8000000000000000 = 4 ∧ xshRr 0x0400000000000000 = 0x80002000 ∧
    xshRr 0x0000200000000000 = 0x00040001 ∧ xshRr 0xfedcba9876543210 = 0xb7214bd7 ∧ xshRr 0x7ffffff = 0 := by decide

theorem test_lcg_step :
    lcgStep defaultMult 0xffffffffffffffff 1 = 0xa7ae0bd2b36a80d4 ∧ lcgStep defaultMult 2 3 = 0xb0a3e85a992afe5d := by decide

/-- The loop's trace for `delta = 5` (section 2.3), after bit 2. -/
theorem test_jump_trace :
    jumpAfter defaultMult 0x6d 5 3 =
      ⟨0x696d29da565ad7fd, 0xbc5beeceba819059, 0xb59dda5f38413d21, 0xcd654675013e3ff8⟩ := by decide

theorem test_affine_pow :
    affinePow defaultMult 0x6d 715806037 = (0xcc8db379cbe8363d, 0x3f00afcd0c25bf49) ∧
    affinePow defaultMult 0x6d 0xffffffffd555aaab = (0x580854ac1ad79115, 0x5a84ee1f8f3ff603) := by
  decide +kernel

/-- Another multiplier (section 2.10). -/
theorem test_affine_pow_mult5 : affinePow 5 109 3 = (125, 3379) := by decide

theorem test_threshold :
    threshold 3 = 1 ∧ threshold 100 = 96 ∧ threshold 0x80000000 = 0 ∧ threshold 0x80000001 = 0x7fffffff ∧
    threshold 0xffffffff = 1 := by decide

/-! Commands, one step each on a small state -/

/-- A seeded, idle block. -/
def seeded (state inc : U64) : State :=
  { State.reset with gen := some { state, inc } }

/-- What a test looks at: the GeneratorState and the response on the port. -/
def view (o : Host.Outcome State Fault Refusal) : Option (Option GeneratorState × Option Response) :=
  match o with
  | .next t => some (t.gen, t.response)
  | .fault _ => none
  | .refused _ => none

/-- `seed 42 54` (section 2.4, D). -/
theorem test_seed :
    view (exec (.seed 42 54) State.reset) = some (some ⟨0x185706b82c2e03f8, 0x6d⟩, some ⟨.ok, 0⟩) := by decide

/-- Bit 63 of the selector has no effect, and a reseed replaces everything (section 2.4, R62, R63). -/
theorem test_seed_again :
    view (exec (.seed 42 0x8000000000000036) (seeded 7 9)) =
      some (some ⟨0x185706b82c2e03f8, 0x6d⟩, some ⟨.ok, 0⟩) := by decide

/-- The first output after `seed 42 54` (section 2.5, D): from the pre-step state. -/
theorem test_next :
    view (exec .next (seeded 0x185706b82c2e03f8 0x6d)) =
      some (some ⟨0x2b47fed88766bb05, 0x6d⟩, some ⟨.ok, 0xa15c02b7⟩) := by decide

theorem test_next_unseeded : view (exec .next State.reset) = some (none, some ⟨.errUnseeded, 0⟩) := by decide

/-- Program P3, line 3: one rejection (section 3, D). -/
theorem test_bounded_rejects :
    view (exec (.bounded 2147483649) (seeded 0x2b47fed88766bb05 0x6d)) =
      some (some ⟨0xf7079824c154bf23, 0x6d⟩, some ⟨.ok, 0x3a1d332f⟩) := by decide +kernel

/-- Program P6, line 2: two rejections with `bound = 3` (section 3, D). -/
theorem test_bounded_small :
    view (exec (.bounded 3) (seeded 0 1)) = some (some ⟨0xc0b18ccf4e252d17, 1⟩, some ⟨.ok, 1⟩) := by decide +kernel

/-- `advance -715806037` after `seed 42 54` (section 2.6, D). -/
theorem test_advance_back :
    view (exec (.advance 0xffffffffd555aaab) (seeded 0x185706b82c2e03f8 0x6d)) =
      some (some ⟨0x25989dedc48dc15b, 0x6d⟩, some ⟨.ok, 0⟩) := by decide +kernel

/-- A no-op delta still faults on an unseeded block (section 2.8, R95). -/
theorem test_advance_unseeded : view (exec (.advance 0) State.reset) = some (none, some ⟨.errUnseeded, 0⟩) := by decide

/-- The response words of section 2.8. -/
theorem test_response_word :
    (Response.word ⟨.ok, 0xa15c02b7⟩) = 0x0a15c02b7 ∧ (Response.word ⟨.errUnseeded, 0⟩) = 0x100000000 := by decide

/-! The ports -/

/-- The word of `seed 0 0` presented after reset is accepted and run (section 2.8). -/
theorem test_step_seed :
    view (step (State.reset.withFetchWord 136 0)) = some (some ⟨0x5851f42d4c957f2e, 1⟩, some ⟨.ok, 0⟩) := by decide

/-- A waiting response is held while the host is not ready, and a command presented meanwhile is not accepted (R41, R112). -/
theorem test_step_holds :
    view (step { State.reset with phase := .responding ⟨.ok, 7⟩, inputs := [Pins.present 0] }) =
      some (none, some ⟨.ok, 7⟩) := by decide

/-! The transcript (R44 to R49) -/

/-- One line of each kind, read from text. -/
theorem test_transcript_text :
    parseTranscript "seed 42 54\nadvance -6\nnext_bounded 6 3\nnext 2707161783\n".toList =
      some [.seed 42 54, .advance (-6), .nextBounded 6 3, .next 2707161783] := by decide

/-- Malformed texts have no meaning (R44, U14): leading zero, two spaces, range, a missing line feed, an unknown keyword. -/
theorem test_transcript_refused :
    parseTranscript "next 01\n".toList = none ∧ parseTranscript "next  1\n".toList = none ∧
    parseTranscript "next 4294967296\n".toList = none ∧ parseTranscript "next 1".toList = none ∧
    parseTranscript "jump 1\n".toList = none ∧ parseTranscript "advance 2147483648\n".toList = none := by decide

/-- The largest and smallest numerals read back as written; an empty text has no lines. -/
theorem test_transcript_extremes :
    parseTranscript (printTranscript [.seed (2 ^ 64 - 1) 0, .nextBounded 4294967295 0, .advance (-2147483648)]) =
      some [.seed (2 ^ 64 - 1) 0, .nextBounded 4294967295 0, .advance (-2147483648)] ∧
    parseTranscript [] = some [] := by decide +kernel

/-- The worked encodings of R49's table: `advance -5`, `advance -715806037`. -/
theorem test_line_word :
    lineWord (.advance (-5)) = 0x00000000000000003ffffffffffffffef ∧
    lineWord (.advance (-715806037)) = 0x00000000000000003ffffffff5556aaaf := by decide

/-! Witnesses: for each statement with hypotheses, a concrete state and operands that meet them all together; where a statement has
several clauses over one input, one for each clause at a boundary of its range -/

/-- The block after `seed 42 54`, idle. -/
def afterSeed : State := seeded 0x185706b82c2e03f8 0x6d

/-- A presented command with these fields. -/
def presented (op : BitVec 2) (a b : U64) : Pins :=
  { Pins.quiet with cmdValid := true, cmdOp := op, cmdA := a, cmdB := b }

/-- What `IgnoredBitsChangeNothing` asks of two samples. -/
def sameUsedBits (p q : Pins) : Bool :=
  p.rst = q.rst ∧ p.cmdValid = q.cmdValid ∧ p.rspReady = q.rspReady ∧ p.cmdOp = q.cmdOp ∧
    (p.cmdOp = 0 → p.cmdA = q.cmdA ∧ p.cmdB = q.cmdB) ∧
    (p.cmdOp = 2 → p.cmdA.toNat % 2 ^ 32 = q.cmdA.toNat % 2 ^ 32) ∧ (p.cmdOp = 3 → p.cmdA = q.cmdA)

theorem witness_ignoredBits :
    sameUsedBits (presented 0 5 6) (presented 0 5 6) ∧
    sameUsedBits (presented 1 0xdeadbeefdeadbeef 1) (presented 1 0 0) ∧
    sameUsedBits (presented 2 0xffffffff00000006 1) (presented 2 6 0) ∧
    sameUsedBits (presented 3 5 0xffffffffffffffff) (presented 3 5 0) := by decide

theorem witness_lines_wf :
    (Line.seed (2 ^ 64 - 1) (2 ^ 64 - 1)).wf = true ∧ (Line.next (2 ^ 32 - 1)).wf = true ∧
    (Line.nextBounded 0 (2 ^ 32 - 1)).wf = true ∧ (Line.advance (-2147483648)).wf = true ∧
    (Line.advance 2147483647).wf = true := by decide

theorem witness_lines_all_wf : ∀ l, l ∈ [Line.seed 42 54, Line.advance (-5)] → l.wf = true := by decide

theorem witness_rotation : 31 < 32 ∧ 1 ≤ (1 : BitVec 5).toNat ∧ 1 ≤ (31 : BitVec 5).toNat := by decide

/-- `j = 18` and `j = 19`, the two sides of `OutputBitByBit`. -/
theorem witness_outputBit : (18 + (0 : U64).toNat / 2 ^ 59) % 32 ≤ 18 ∧ 19 ≤ (19 + (0 : U64).toNat / 2 ^ 59) % 32 := by decide

theorem witness_lowBits :
    (0x7ffffff : U64).toNat / 2 ^ 27 = (0 : U64).toNat / 2 ^ 27 ∧ (0x7ffffff : U64).toNat < 2 ^ 27 := by decide

theorem witness_earlyExit : 3 ≤ 64 ∧ 64 ≤ 64 ∧ (5 : U64).toNat < 2 ^ 3 := by decide

theorem witness_multiplier : defaultMult.getLsbD 0 = true ∧ FullPeriod defaultMult := by
  refine ⟨by decide, ?_⟩
  unfold FullPeriod
  decide

/-- All premises of the full-period statements together, with a non-zero bound. -/
theorem witness_seeded :
    afterSeed.gen = some ⟨0x185706b82c2e03f8, 0x6d⟩ ∧ afterSeed.gen.isSome = true ∧ (0x6d : U64).getLsbD 0 = true ∧
    afterSeed.config.mult.getLsbD 0 = true ∧ FullPeriod afterSeed.config.mult ∧ (2147483649 : U32) ≠ 0 := by
  refine ⟨rfl, rfl, by decide, by decide, ?_, by decide⟩
  unfold FullPeriod
  decide

theorem witness_unseeded : State.reset.gen = none := by decide

/-- The four corner states of `NextCornerCases`. -/
theorem witness_nextCorners :
    (seeded 0x07ffffffffffffff 1).gen = some ⟨0x07ffffffffffffff, 1⟩ ∧ (0x07ffffffffffffff : U64).toNat < 2 ^ 59 ∧
    (0x7ffffff : U64).toNat < 2 ^ 27 ∧ (seeded 0 1).gen = some ⟨0, 1⟩ ∧
    (seeded (BitVec.allOnes 64) 1).gen = some ⟨BitVec.allOnes 64, 1⟩ := by decide

theorem witness_compose : (0x8000000000000000 : U64).toNat + (0x7fffffffffffffff : U64).toNat < 2 ^ 64 := by decide

theorem witness_bounds :
    (1 : U32) ≠ 0 ∧ (0x80000001 : U32).toNat = 2 ^ 31 + 1 ∧ 2 ^ 31 < (0x80000001 : U32).toNat ∧ (2 : U32) < 3 := by decide

/-- The third candidate from `state = 0`, `inc = 1` is the first that `bound = 3` accepts (P6); the first one from the seed state
is accepted at once. -/
theorem witness_firstAccepted :
    FirstAccepted 3 (seeded 0 1).config.mult ⟨0, 1⟩ 2 ∧ FirstAccepted 2147483649 defaultMult ⟨0x185706b82c2e03f8, 0x6d⟩ 0 := by
  unfold FirstAccepted
  decide

/-- From `state = 0`, `inc = 0` (which no run reaches) every candidate is 0. -/
theorem witness_neverAccepted :
    (3 : U32) ≠ 0 ∧ (seeded 0 0).gen = some ⟨0, 0⟩ ∧ (∀ p, p ∈ (seeded 0 0).inputs → p.rst = false) ∧
    ∀ j, candidate (seeded 0 0).config.mult ⟨0, 0⟩ j < threshold 3 := by
  refine ⟨by decide, by decide, by decide, fun j => ?_⟩
  have h : ∀ j, orbit (seeded 0 0).config.mult ⟨0, 0⟩ j = 0 := by
    intro j
    induction j with
    | zero => rfl
    | succ n ih =>
      rw [orbit, Function.iterate_succ_apply', ← orbit, ih]
      decide
  rw [candidate, h j]
  decide

theorem witness_boundedResult :
    ∃ t, exec (.bounded 3) (seeded 0 1) = .next t ∧ t.response = some ⟨.ok, 1⟩ :=
  ⟨stateAfter (.bounded 3) (seeded 0 1), rfl, by decide +kernel⟩

/-- A block with `MULT = 0` after `seed 0 0`: `state = inc = 1`, and every LCG step gives 1 again. -/
def stuckSeed : State :=
  { seeded 1 1 with config := { mult := 0 } }

theorem orbit_stuckSeed (j : Nat) : orbit 0 ⟨1, 1⟩ j = 1 := by
  induction j with
  | zero => rfl
  | succ n ih =>
    rw [orbit, Function.iterate_succ_apply', ← orbit, ih]
    decide

/-- A BOUNDED in a loop that never ends, on a block that a run reaches: `seed 0 0`, then `next_bounded 3`, with `MULT = 0`; at
its next instants it draws, and is reset. -/
theorem witness_loop :
    view (exec (.seed 0 0) { State.reset with config := { mult := 0 } }) = some (stuckSeed.gen, some ⟨.ok, 0⟩) ∧
    ({ stuckSeed with phase := .drawing 3 } : State).Inv ∧
    (∃ t, step { stuckSeed with phase := .drawing 3 } = .next t) ∧
    ∃ t, step { stuckSeed with phase := .drawing 3, inputs := [Pins.resetPulse] } = .next t ∧ t.gen = none := by
  refine ⟨by decide, ⟨fun g h => ?_, fun b h => ?_⟩, ⟨_, rfl⟩, _, rfl, rfl⟩
  · cases h
    decide
  · cases h
    refine ⟨by decide, ⟨1, 1⟩, rfl, fun j => ?_⟩
    show xshRr (orbit 0 ⟨1, 1⟩ j) < threshold 3
    rw [orbit_stuckSeed]
    decide

theorem witness_status :
    (∃ t, exec .next State.reset = .next t ∧ t.response = some ⟨.errUnseeded, 0⟩) ∧
    ∃ t, exec .next afterSeed = .next t ∧ t.response = some ⟨.ok, 0xa15c02b7⟩ :=
  ⟨⟨_, rfl, by decide⟩, _, rfl, by decide⟩

theorem witness_notSeed : ∀ x y, Instr.next ≠ .seed x y := by
  intro x y h
  cases h

/-- An idle block with a command presented; with nothing presented; a busy one with reset applied. -/
theorem witness_instants :
    (∃ s : State, s.inputs = [presented 1 0 0] ∧ s.phase = .idle ∧ (presented 1 0 0).rst = false ∧
      (presented 1 0 0).cmdValid = true) ∧
    (∃ s : State, s.inputs = [Pins.take] ∧ s.phase = .idle ∧ Pins.take.rst = false ∧ Pins.take.cmdValid = false) ∧
    ∃ s : State, s.inputs = [Pins.resetPulse] ∧ s.phase = .drawing 3 ∧ Pins.resetPulse.rst = true :=
  ⟨⟨{ State.reset with inputs := [presented 1 0 0] }, rfl, rfl, rfl, rfl⟩,
    ⟨{ State.reset with inputs := [Pins.take] }, rfl, rfl, rfl, rfl⟩,
    { stuckSeed with phase := .drawing 3, inputs := [Pins.resetPulse] }, rfl, rfl, rfl⟩

theorem witness_tableWord : decodeTableWord 136 0x1a = some (.bounded 6) := by decide

theorem witness_busy :
    ({ afterSeed with phase := .responding ⟨.ok, 0⟩ } : State).cmdReady = false ∧
    ({ afterSeed with phase := .drawing 3 } : State).cmdReady = false ∧
    (presented 0 1 2).rst = Pins.quiet.rst ∧ (presented 0 1 2).rspReady = Pins.quiet.rspReady := by decide

/-- A waiting response with the host not ready, and ready. -/
theorem witness_waiting :
    (∃ s : State, s.inputs = [Pins.quiet] ∧ s.response = some ⟨.ok, 7⟩ ∧ Pins.quiet.rst = false ∧ Pins.quiet.rspReady = false) ∧
    ∃ s : State, s.inputs = [Pins.take] ∧ s.response = some ⟨.ok, 7⟩ ∧ Pins.take.rst = false ∧ Pins.take.rspReady = true :=
  ⟨⟨{ afterSeed with phase := .responding ⟨.ok, 7⟩, inputs := [Pins.quiet] }, rfl, rfl, rfl, rfl⟩,
    { afterSeed with phase := .responding ⟨.ok, 7⟩, inputs := [Pins.take] }, rfl, rfl, rfl, rfl⟩

theorem witness_sequence :
    ∃ s rs t, s.phase = .idle ∧ s.inputs = commandSamples [.next, .advance 5] ++ [Pins.quiet] ∧
      answers [.next, .advance 5] s = some (rs, t) ∧ rs = [⟨.errUnseeded, 0⟩, ⟨.errUnseeded, 0⟩] :=
  ⟨{ State.reset with inputs := commandSamples [.next, .advance 5] ++ [Pins.quiet] }, _, _, rfl, rfl, rfl, by decide⟩

/-- An idle block and the first lines of P1 (section 3): the transcript's responses are the expected ones; and lines whose
responses are not. -/
theorem witness_transcript :
    (∃ t, answers ([Line.seed 42 54, .next 2707161783].map lineCommand) State.reset =
      some ([Line.seed 42 54, .next 2707161783].map lineExpected, t)) ∧
    (answers ([Line.seed 42 54, .next 1].map lineCommand) State.reset).map Prod.fst ≠
      some ([Line.seed 42 54, .next 1].map lineExpected) ∧ State.reset.phase = .idle := by
  refine ⟨⟨{ State.reset with gen := some ⟨0x2b47fed88766bb05, 0x6d⟩ }, by decide +kernel⟩, by decide +kernel, rfl⟩

/-- The faulting command and the one after it may differ. -/
theorem witness_faults : State.reset.gen = none ∧ (∀ x y, Instr.next ≠ .seed x y) ∧ ∀ x y, Instr.advance 0 ≠ .seed x y :=
  ⟨rfl, witness_notSeed, fun _ _ h => by cases h⟩

/-- The smallest and the largest exponent of `BoundedCornerCases`. -/
theorem witness_powers : 0 < 32 ∧ 31 < 32 ∧ BitVec.ofNat 32 (2 ^ 31) = (0x80000000 : U32) := by decide

/-- A state that meets the invariant, not reset, and its step. -/
theorem witness_invariant : afterSeed.Inv ∧ ∃ t, step afterSeed = .next t := by
  refine ⟨⟨fun g h => ?_, fun b h => ?_⟩, _, rfl⟩
  · cases h
    decide
  · cases h

/-- The three ways of `OnlySeedAndResetTouchIncAndSeeded`: reset of a seeded block, a reseed, a first SEED. -/
theorem witness_seedAndReset :
    (∃ t, step { afterSeed with inputs := [Pins.resetPulse] } = .next t ∧ t.gen = none) ∧
    (∃ t, step { afterSeed with inputs := [presented 0 42 55] } = .next t ∧
      t.gen.map GeneratorState.inc = some 0x6f) ∧
    ∃ t, step { State.reset with inputs := [presented 0 42 54] } = .next t ∧ t.gen.map GeneratorState.inc = some 0x6d :=
  ⟨⟨_, rfl, by decide⟩, ⟨_, rfl, by decide⟩, _, rfl, by decide⟩

theorem witness_sameGenerator :
    afterSeed.config = ({ afterSeed with phase := .drawing 3 } : State).config ∧
    afterSeed.gen = ({ afterSeed with phase := .drawing 3 } : State).gen := by decide

end Sys2Proof.Tests
end

section
/-! The state family (10_state.md): what a command and a sampling instant do to the GeneratorState, `MULT` and the phase, and the
invariant of the block. -/

namespace Sys2Proof.Machine

/-! What a command does -/

/-- What command `i` makes of `seeded`, `state` and `inc` under the multiplier `mult`, and the phase it leaves the block in. An
answer's value and new `state` are left open: this relation says what the commands other than SEED have in common. -/
inductive CommandEffect (mult : U64) : Instr → Option GeneratorState → Option GeneratorState → Phase → Prop where
  /-- SEED replaces the GeneratorState, seeded or not (R60). -/
  | seed (a b : U64) (gen : Option GeneratorState) :
      CommandEffect mult (.seed a b) gen (some (seedGenerator mult a b)) (.responding ⟨.ok, 0⟩)
  /-- Every other command faults on an unseeded block and writes nothing (R90). -/
  | unseeded (i : Instr) (notSeed : ∀ a b, i ≠ .seed a b) :
      CommandEffect mult i none none (.responding ⟨.errUnseeded, 0⟩)
  /-- On a seeded block a command that ends moves `state` and keeps `inc` (R11). -/
  | answer (i : Instr) (notSeed : ∀ a b, i ≠ .seed a b) (g g' : GeneratorState) (value : U32) (inc_eq : g'.inc = g.inc) :
      CommandEffect mult i (some g) (some g') (.responding ⟨.ok, value⟩)
  /-- A BOUNDED that accepts no candidate at all stays in its loop (R87, log entry 6). -/
  | endless (bound : U32) (g : GeneratorState) (rejects : ∀ j, acceptCandidate bound (candidate mult g j) = none) :
      CommandEffect mult (.bounded bound) (some g) (some g) (.drawing bound)

theorem exec_unseeded {i : Instr} (notSeed : ∀ a b, i ≠ .seed a b) {s : State} (h : s.gen = none) :
    exec i s = .next (raiseUnseeded s) := by
  cases i with
  | seed a b => exact absurd rfl (notSeed a b)
  | next => exact congrArg Host.Outcome.next (whenSeeded_none h _)
  | bounded bound => exact congrArg Host.Outcome.next (whenSeeded_none h _)
  | advance delta => exact congrArg Host.Outcome.next (whenSeeded_none h _)

/-- An accepting loop leaves `inc` as it is. -/
theorem drawUntil_inc {bound : U32} {mult : U64} {fuel : Nat} {g g' : GeneratorState} {value : U32}
    (h : drawUntil bound mult fuel g = some (value, g')) : g'.inc = g.inc := by
  obtain ⟨k, -, -, rfl, -⟩ := (drawUntil_eq_some_iff ..).mp h
  rfl

/-- The effect of a command depends on `MULT` and the GeneratorState only (R16), and everything outside the GeneratorState and the
phase is its frame. -/
theorem exec_effect (i : Instr) (mult : U64) (gen : Option GeneratorState) :
    ∃ gen' phase', CommandEffect mult i gen gen' phase' ∧
      ∀ s : State, s.config.mult = mult → s.gen = gen → exec i s = .next { s with gen := gen', phase := phase' } := by
  by_cases hseed : ∃ a b, i = .seed a b
  · obtain ⟨a, b, rfl⟩ := hseed
    refine ⟨_, _, .seed a b gen, ?_⟩
    rintro s rfl -
    rfl
  · push Not at hseed
    cases gen with
    | none =>
      refine ⟨_, _, .unseeded i hseed, fun s _ hg => ?_⟩
      rw [exec_unseeded hseed hg, ← hg]
      rfl
    | some g =>
      cases i with
      | seed a b => exact absurd rfl (hseed a b)
      | next =>
        refine ⟨_, _, .answer _ hseed g (g.after mult 1) (candidate mult g 0) rfl, ?_⟩
        rintro s rfl hg
        exact exec_next_seeded hg
      | bounded bound =>
        cases hd : drawUntil bound mult drawLimit g with
        | some result =>
          refine ⟨_, _, .answer _ hseed g result.2 result.1 (drawUntil_inc hd), ?_⟩
          rintro s rfl hg
          rw [exec_bounded_seeded bound hg, hd]
          rfl
        | none =>
          refine ⟨_, _, .endless bound g ((drawUntil_limit_eq_none_iff ..).mp hd), ?_⟩
          rintro s rfl hg
          rw [exec_bounded_seeded bound hg, hd, ← hg]
      | advance delta =>
        refine ⟨_, _, .answer _ hseed g (jump mult delta g) 0 rfl, ?_⟩
        rintro s rfl hg
        exact exec_advance_seeded delta hg

/-- `exec_effect` read off a command that was run. -/
theorem effect_of_exec {i : Instr} {s t : State} (h : exec i s = .next t) :
    ∃ gen' phase', CommandEffect s.config.mult i s.gen gen' phase' ∧ t = { s with gen := gen', phase := phase' } := by
  obtain ⟨gen', phase', heffect, hexec⟩ := exec_effect i s.config.mult s.gen
  rw [hexec s rfl rfl] at h
  cases h
  exact ⟨gen', phase', heffect, rfl⟩

/-- Only SEED writes `seeded` and `inc` (R11, R13). -/
theorem CommandEffect.inc_eq {mult : U64} {i : Instr} {gen gen' : Option GeneratorState} {phase : Phase}
    (h : CommandEffect mult i gen gen' phase) (notSeed : ∀ a b, i ≠ .seed a b) :
    gen'.map GeneratorState.inc = gen.map GeneratorState.inc := by
  cases h with
  | seed a b => exact absurd rfl (notSeed a b)
  | unseeded => rfl
  | answer _ _ g g' value hinc => exact congrArg some hinc
  | endless => rfl

/-- Settles O57: `exec_effect` gives the new GeneratorState and phase from `MULT` and the old GeneratorState alone. -/
theorem generatorStateDeterminesTheFuture : Obligations.GeneratorStateDeterminesTheFuture := by
  intro i s s' hconfig hgen
  obtain ⟨gen', phase', -, hexec⟩ := exec_effect i s.config.mult s.gen
  exact ⟨_, _, hexec s rfl rfl, hexec s' (by rw [hconfig]) hgen.symm, rfl, rfl⟩

/-- Settles O56: `seeded` and `gen = none` are read off the kept `inc`. -/
theorem commandFrame : Obligations.CommandFrame := by
  intro i s t h
  obtain ⟨gen', phase', heffect, rfl⟩ := effect_of_exec h
  refine ⟨rfl, rfl, rfl, fun notSeed => ?_⟩
  have hinc : gen'.map GeneratorState.inc = s.gen.map GeneratorState.inc := heffect.inc_eq notSeed
  have hseeded : gen'.isSome = s.gen.isSome := by simpa using congrArg Option.isSome hinc
  exact ⟨hseeded, hinc, fun hnone => by simpa [hnone] using hinc⟩

/-! What a sampling instant does to `MULT`, `seeded` and `inc` -/

theorem loopDraw_config (bound : U32) (s : State) : (loopDraw bound s).config = s.config := by
  obtain ⟨-, h⟩ | ⟨g, -, ⟨v, -, h⟩ | ⟨-, h⟩⟩ := loopDraw_cases bound s <;> rw [h] <;> rfl

/-- A draw in the loop writes neither `seeded` nor `inc`. -/
theorem loopDraw_inc (bound : U32) (s : State) :
    (loopDraw bound s).gen.map GeneratorState.inc = s.gen.map GeneratorState.inc := by
  obtain ⟨-, h⟩ | ⟨g, hg, ⟨v, -, h⟩ | ⟨-, h⟩⟩ := loopDraw_cases bound s
  · rw [h]
  · rw [h, hg]; rfl
  · rw [h, hg]; rfl

/-- The successors of a step, the outcome of `step_cases` taken apart: reset, a command, a delivery, a draw, or waiting. -/
theorem step_next_cases {s t : State} (h : step s = .next t) :
    (s.pins.rst = true ∧ t = applyReset s.popInput) ∨
    (s.pins.rst = false ∧ s.phase = .idle ∧ s.pins.cmdValid = true ∧ exec (decode s.pins.word) s.popInput = .next t) ∨
    t = s.popInput ∨
    (∃ r, t = deliver r s.popInput) ∨
    ∃ bound, s.phase = .drawing bound ∧ t = loopDraw bound s.popInput := by
  obtain ⟨hr, e⟩ | ⟨hr, hp, hv, e⟩ | ⟨-, -, -, e⟩ | ⟨r, -, -, -, e⟩ | ⟨r, -, -, -, e⟩ | ⟨b, -, hp, e⟩ := step_cases s <;>
    rw [e] at h
  · cases h; exact .inl ⟨hr, rfl⟩
  · exact .inr (.inl ⟨hr, hp, hv, h⟩)
  · cases h; exact .inr (.inr (.inl rfl))
  · cases h; exact .inr (.inr (.inr (.inl ⟨r, rfl⟩)))
  · cases h; exact .inr (.inr (.inl rfl))
  · cases h; exact .inr (.inr (.inr (.inr ⟨b, hp, rfl⟩)))

/-- Settles O54: in each case of a step `config` is in the frame. -/
theorem multiplierIsNeverWritten : Obligations.MultiplierIsNeverWritten := by
  intro s t h
  obtain ⟨-, rfl⟩ | ⟨-, -, -, hexec⟩ | rfl | ⟨r, rfl⟩ | ⟨bound, -, rfl⟩ := step_next_cases h
  · rfl
  · exact (commandFrame _ _ _ hexec).1
  · rfl
  · rfl
  · exact loopDraw_config bound s.popInput

/-- What a step does to `seeded` and `inc`: reset clears them, an accepted SEED writes them, and everything else keeps them. -/
theorem step_inc_cases {s t : State} (h : step s = .next t) :
    (s.pins.rst = true ∧ t.gen = none) ∨
    (∃ a b, s.pins.rst = false ∧ s.phase = .idle ∧ s.pins.cmdValid = true ∧ decode s.pins.word = .seed a b ∧
      t.gen = some (seedGenerator s.config.mult a b)) ∨
    t.gen.map GeneratorState.inc = s.gen.map GeneratorState.inc := by
  obtain ⟨hr, rfl⟩ | ⟨hr, hp, hv, hexec⟩ | rfl | ⟨r, rfl⟩ | ⟨bound, -, rfl⟩ := step_next_cases h
  · exact .inl ⟨hr, rfl⟩
  · by_cases hseed : ∃ a b, decode s.pins.word = .seed a b
    · obtain ⟨a, b, hd⟩ := hseed
      rw [hd, exec_seed] at hexec
      cases hexec
      exact .inr (.inl ⟨a, b, hr, hp, hv, hd, rfl⟩)
    · push Not at hseed
      obtain ⟨-, -, -, hframe⟩ := commandFrame _ _ _ hexec
      obtain ⟨-, hinc, -⟩ := hframe hseed
      exact .inr (.inr hinc)
  · exact .inr (.inr rfl)
  · exact .inr (.inr rfl)
  · exact .inr (.inr (loopDraw_inc bound s.popInput))

/-- Settles O55, from the three cases of `step_inc_cases`. -/
theorem onlySeedAndResetTouchIncAndSeeded : Obligations.OnlySeedAndResetTouchIncAndSeeded := by
  intro s t h
  obtain ⟨hr, hnone⟩ | ⟨a, b, hr, hp, hv, hd, hgen⟩ | hinc := step_inc_cases h
  · refine ⟨fun g _ => .inl ⟨hr, hnone⟩, fun _ g' hg' => ?_⟩
    rw [hnone] at hg'
    cases hg'
  · refine ⟨fun g _ => .inr ⟨_, hgen, .inr ⟨a, b, hp, hv, hd, seedGenerator_inc ..⟩⟩, fun _ g' hg' => ?_⟩
    rw [hgen] at hg'
    cases hg'
    exact ⟨a, b, hr, hp, hv, hd, seedGenerator_inc ..⟩
  · constructor
    · intro g hg
      rw [hg, Option.map_some, Option.map_eq_some_iff] at hinc
      obtain ⟨g', hg', e⟩ := hinc
      exact .inr ⟨g', hg', .inl e⟩
    · intro hnone g' hg'
      rw [hnone, hg'] at hinc
      cases hinc

/-! The invariant -/

/-- Settles O52: reset leaves no GeneratorState and no loop. -/
theorem invariantAtReset : Obligations.InvariantAtReset :=
  ⟨nofun, nofun⟩

/-- SEED makes `inc` odd (R14). -/
theorem seedGenerator_inc_odd (mult a b : U64) : (seedGenerator mult a b).inc.getLsbD 0 = true := by
  simp

/-- `OddInc` speaks of `inc` only. -/
theorem State.OddInc.of_inc_eq {s t : State} (hs : s.OddInc)
    (hinc : t.gen.map GeneratorState.inc = s.gen.map GeneratorState.inc) : t.OddInc := by
  intro g' hg'
  rw [hg', Option.map_some, eq_comm, Option.map_eq_some_iff] at hinc
  obtain ⟨g, hg, e⟩ := hinc
  rw [← e]
  exact hs g hg

theorem step_keeps_oddInc {s t : State} (hs : s.OddInc) (h : step s = .next t) : t.OddInc := by
  obtain ⟨-, hnone⟩ | ⟨a, b, -, -, -, -, hgen⟩ | hinc := step_inc_cases h
  · intro g hg
    rw [hnone] at hg
    cases hg
  · intro g hg
    rw [hgen] at hg
    cases hg
    exact seedGenerator_inc_odd ..
  · exact hs.of_inc_eq hinc

theorem State.loopSound_of_not_drawing {s : State} (h : ∀ bound, s.phase ≠ .drawing bound) : s.LoopSound :=
  fun bound hp => absurd hp (h bound)

/-- A command that stays in its loop has a non-zero bound and rejects every candidate. -/
theorem CommandEffect.loop {mult : U64} {i : Instr} {gen gen' : Option GeneratorState} {bound : U32}
    (h : CommandEffect mult i gen gen' (.drawing bound)) :
    bound ≠ 0 ∧ ∃ g, gen' = some g ∧ ∀ j, candidate mult g j < threshold bound := by
  cases h with
  | endless _ g rejects =>
    have hreject := fun j => (acceptCandidate_eq_none_iff ..).mp (rejects j)
    exact ⟨(hreject 0).1, g, rfl, fun j => (hreject j).2⟩

theorem exec_loopSound {i : Instr} {s t : State} (h : exec i s = .next t) : t.LoopSound := by
  obtain ⟨gen', phase', heffect, rfl⟩ := effect_of_exec h
  rintro bound rfl
  exact heffect.loop

/-- A draw in a sound loop is rejected, and the candidates still to come are among those that came after it before. -/
theorem loopDraw_keeps_loopSound {s : State} {bound : U32} (hs : s.LoopSound) (hp : s.phase = .drawing bound) :
    (loopDraw bound s).LoopSound := by
  obtain ⟨hb, g, hg, hlt⟩ := hs bound hp
  have hreject : acceptCandidate bound (candidate s.config.mult g 0) = none :=
    (acceptCandidate_eq_none_iff ..).mpr ⟨hb, hlt 0⟩
  have hdraw : loopDraw bound s = s.setGen (g.after s.config.mult 1) := by
    simp only [loopDraw, hg, draw_eq, hreject]
  rw [hdraw]
  intro bound' hp'
  obtain rfl : bound = bound' := by simpa [hp] using hp'
  refine ⟨hb, _, rfl, fun j => ?_⟩
  rw [State.setGen_config, candidate_after]
  exact hlt (1 + j)

theorem step_keeps_loopSound {s t : State} (hs : s.LoopSound) (h : step s = .next t) : t.LoopSound := by
  have hpop : s.popInput.LoopSound := hs
  obtain ⟨-, rfl⟩ | ⟨-, -, -, hexec⟩ | rfl | ⟨r, rfl⟩ | ⟨bound, hp, rfl⟩ := step_next_cases h
  · exact State.loopSound_of_not_drawing (by simp)
  · exact exec_loopSound hexec
  · exact hpop
  · exact State.loopSound_of_not_drawing (by simp)
  · exact loopDraw_keeps_loopSound hpop hp

/-- Settles O53, one half of the invariant at a time. -/
theorem stepKeepsTheInvariant : Obligations.StepKeepsTheInvariant := by
  rintro s t ⟨hodd, hloop⟩ h
  exact ⟨step_keeps_oddInc hodd h, step_keeps_loopSound hloop h⟩

end Sys2Proof.Machine
end

section
/-! The memory family (20_memory.md): the block has no memory; its port is one sequential object. An accepted command is executed
in its instant, a response is delivered once, and a run answers the commands in order. -/

namespace Sys2Proof.Machine

/-! Acceptance -/

theorem decode_commandWord (op : BitVec 2) (a b : U64) :
    decode (commandWord op a b) =
      if op = opSeed then .seed a b else if op = opNext then .next
      else if op = opBounded then .bounded (boundOperand a) else .advance a := by
  rw [decode, opField_commandWord, aField_commandWord, bField_commandWord]

theorem boundOperand_boundToOperand (bound : U32) : boundOperand (boundToOperand bound) = bound := by
  apply BitVec.eq_of_toNat_eq
  have h := bound.isLt
  simp only [boundOperand, boundToOperand, BitVec.extractLsb'_toNat, BitVec.toNat_setWidth, Nat.shiftRight_zero]
  omega

/-- The encoding drops no operand (R36 to R39). -/
theorem decode_encode (i : Instr) : decode (encode i) = i := by
  cases i with
  | seed a b => exact decode_commandWord ..
  | next => exact decode_commandWord ..
  | bounded bound =>
    calc decode (encode (.bounded bound))
        = .bounded (boundOperand (boundToOperand bound)) := decode_commandWord ..
      _ = .bounded bound := by rw [boundOperand_boundToOperand]
  | advance delta => exact decode_commandWord ..

/-- The pins sampled are the host's next ones, and the others remain. -/
theorem sample_of_inputs {s : State} {p : Pins} {rest : List Pins} (h : s.inputs = p :: rest) :
    s.pins = p ∧ s.popInput = { s with inputs := rest } := by
  simp [State.pins, State.popInput, h]

/-- An idle block accepts the command presented and executes it (R35). -/
theorem step_idle_accepts {s : State} (hr : s.pins.rst = false) (hp : s.phase = .idle) (hv : s.pins.cmdValid = true) :
    step s = exec (decode s.pins.word) s.popInput := by
  simp [step, instant, hr, hp, hv]

/-- A waiting response is delivered to a host that is ready (R41). -/
theorem step_responding_delivers {s : State} {r : Response} (hr : s.pins.rst = false) (hp : s.phase = .responding r)
    (hready : s.pins.rspReady = true) : step s = .next (deliver r s.popInput) := by
  simp [step, instant, hr, hp, hready]

/-- Settles O41: `step_idle_accepts` at the sample on top of the host's list. -/
theorem stepRunsTheDecodedCommand : Obligations.StepRunsTheDecodedCommand := by
  intro s p rest hin hp hr hv
  obtain ⟨hpins, hpop⟩ := sample_of_inputs hin
  have haccept := step_idle_accepts (by rwa [hpins]) hp (by rwa [hpins])
  rwa [hpins, hpop] at haccept

/-- A command presented by its encoding is the command executed. -/
theorem step_presented_command {s : State} {i : Instr} {rest : List Pins} (hp : s.phase = .idle)
    (hin : s.inputs = Pins.present (encode i) :: rest) : step s = exec i { s with inputs := rest } :=
  calc step s
      = exec (decode (Pins.present (encode i)).word) { s with inputs := rest } :=
        stepRunsTheDecodedCommand s _ rest hin hp rfl rfl
    _ = exec i { s with inputs := rest } := by rw [word_present, decode_encode]

/-! Delivery -/

theorem loopDraw_delivered (bound : U32) (s : State) : (loopDraw bound s).delivered = s.delivered := by
  obtain ⟨-, h⟩ | ⟨g, -, ⟨v, -, h⟩ | ⟨-, h⟩⟩ := loopDraw_cases bound s <;> rw [h] <;> rfl

/-- Settles O49: of the cases of a step only the delivery of a waiting response writes the record. -/
theorem deliveredOnlyGrowsByTheWaitingResponse : Obligations.DeliveredOnlyGrowsByTheWaitingResponse := by
  intro s t h
  obtain ⟨-, e⟩ | ⟨-, -, -, e⟩ | ⟨-, -, -, e⟩ | ⟨r, hr, hp, hready, e⟩ | ⟨r, -, -, -, e⟩ | ⟨bound, -, -, e⟩ := step_cases s <;>
    rw [e] at h
  · cases h; exact .inl rfl
  · obtain ⟨-, -, hdelivered, -⟩ := commandFrame _ _ _ h
    exact .inl hdelivered
  · cases h; exact .inl rfl
  · cases h
    exact .inr ⟨r, (response_eq_some_iff s r).mpr hp, hready, hr, rfl, rfl⟩
  · cases h; exact .inl rfl
  · cases h; exact .inl (loopDraw_delivered bound s.popInput)

/-! The port as a sequential object -/

/-- A sequence of commands answers when its first one responds and the others answer from the state it leaves (R32). -/
theorem answers_cons_eq_some {i : Instr} {is : List Instr} {s t : State} {rs : List Response}
    (h : answers (i :: is) s = some (rs, t)) :
    ∃ r rs', (stateAfter i s).response = some r ∧ answers is { stateAfter i s with phase := .idle } = some (rs', t) ∧
      rs = r :: rs' := by
  rw [answers] at h
  split at h
  · cases h
  · next r hresponse =>
    split at h
    · cases h
    · next rs' t' hanswers =>
      cases h
      exact ⟨r, rs', hresponse, hanswers, rfl⟩

/-- The two instants of a command that responds: it is accepted and executed, then its response is taken. What the host still
drives and has received does not enter its effect. -/
theorem instants_command {i : Instr} {s : State} {r : Response} (hp : s.phase = .idle)
    (hresponse : (stateAfter i s).response = some r) (k : Nat) (rest : List Pins) (received : List Response) :
    instants (k + 2) { s with inputs := Pins.present (encode i) :: Pins.take :: rest, delivered := received } =
      instants k { stateAfter i s with phase := .idle, inputs := rest, delivered := received ++ [r] } := by
  obtain ⟨gen', phase', -, hexec⟩ := exec_effect i s.config.mult s.gen
  rw [stateAfter_eq (hexec s rfl rfl)] at hresponse ⊢
  obtain rfl : phase' = .responding r := (response_eq_some_iff _ r).mp hresponse
  have haccept : step { s with inputs := Pins.present (encode i) :: Pins.take :: rest, delivered := received } =
      .next { s with gen := gen', phase := .responding r, inputs := Pins.take :: rest, delivered := received } :=
    (step_presented_command (s := { s with inputs := _, delivered := received }) hp rfl).trans (hexec _ rfl rfl)
  rw [instants_succ (k + 1) haccept, instants_succ k (step_responding_delivers rfl rfl rfl)]
  rfl

/-- The host's side of the ports is no part of what `answers` says, so it is a parameter of the induction. -/
theorem instants_commandSamples (is : List Instr) {s t : State} {rs : List Response} (hp : s.phase = .idle)
    (h : answers is s = some (rs, t)) (rest : List Pins) (received : List Response) :
    instants (2 * is.length) { s with inputs := commandSamples is ++ rest, delivered := received } =
      .next { t with inputs := rest, delivered := received ++ rs } := by
  induction is generalizing s rs received with
  | nil =>
    cases h
    simp [commandSamples]
  | cons i is ih =>
    obtain ⟨r, rs', hresponse, hanswers, rfl⟩ := answers_cons_eq_some h
    calc instants (2 * is.length + 2) { s with inputs := commandSamples (i :: is) ++ rest, delivered := received }
        = instants (2 * is.length) { stateAfter i s with
            phase := .idle, inputs := commandSamples is ++ rest, delivered := received ++ [r] } :=
          instants_command hp hresponse ..
      _ = .next { t with inputs := rest, delivered := received ++ [r] ++ rs' } := ih rfl hanswers _
      _ = .next { t with inputs := rest, delivered := received ++ r :: rs' } := by rw [← List.append_cons]

/-- Settles O50: the run of `instants_commandSamples` from the host's side of `s` itself. -/
theorem portIsASequentialObject : Obligations.PortIsASequentialObject := by
  intro is s t rs rest hp hin h
  have hrun := instants_commandSamples is hp h rest s.delivered
  rwa [← hin] at hrun

end Sys2Proof.Machine
end

section
/-! The encoding family (30_encoding.md): the decoder on command words, the bits of the pins it ignores, the text and the command
words of transcript lines, and the instants of the ports at which no command is accepted. -/

namespace Sys2Proof.Machine

/-! Command words -/

/-- Settles O1: `decode_encode`, command by command. -/
theorem encodeThenDecodeIsIdentity : Obligations.EncodeThenDecodeIsIdentity :=
  decode_encode

/-- The word of the number `b * 2^66 + a * 2^2 + op` is made of these fields (R36). -/
theorem ofNat_eq_commandWord (op : BitVec 2) (a b : U64) :
    BitVec.ofNat 130 (b.toNat * 2 ^ 66 + a.toNat * 2 ^ 2 + op.toNat) = commandWord op a b := by
  rw [← commandWord_toNat, BitVec.ofNat_toNat, BitVec.setWidth_eq]

theorem boundOperand_eq_ofNat (a : U64) : boundOperand a = BitVec.ofNat 32 (a.toNat % 2 ^ 32) := by
  apply BitVec.eq_of_toNat_eq
  simp [boundOperand, BitVec.extractLsb'_toNat]

/-- Settles O2: the number is a command word of the four fields, and the decoder selects by its opcode. -/
theorem decodeByOpcodeAndFields : Obligations.DecodeByOpcodeAndFields := by
  intro a b
  have hdecode (op : BitVec 2) :=
    (congrArg decode (ofNat_eq_commandWord op a b)).trans (decode_commandWord op a b)
  refine ⟨hdecode opSeed, hdecode opNext, ?_, hdecode opAdvance⟩
  rw [← boundOperand_eq_ofNat]
  exact hdecode opBounded

/-! Ignored operand bits -/

/-- There are no more than four opcodes (R37, R42). -/
theorem eq_opAdvance {op : BitVec 2} (h0 : op ≠ opSeed) (h1 : op ≠ opNext) (h2 : op ≠ opBounded) : op = opAdvance := by
  revert op
  decide

/-- The decoder reads of the pins the opcode and the operand bits that R38 gives that opcode, and nothing else (R39). -/
theorem decode_word_congr {p q : Pins} (hop : p.cmdOp = q.cmdOp)
    (hseed : p.cmdOp = opSeed → p.cmdA = q.cmdA ∧ p.cmdB = q.cmdB)
    (hbounded : p.cmdOp = opBounded → p.cmdA.toNat % 2 ^ 32 = q.cmdA.toNat % 2 ^ 32)
    (hadvance : p.cmdOp = opAdvance → p.cmdA = q.cmdA) : decode p.word = decode q.word := by
  simp only [Pins.word, decode_commandWord, ← hop]
  split_ifs with h0 h1 h2
  · obtain ⟨ha, hb⟩ := hseed h0
    rw [ha, hb]
  · rfl
  · rw [boundOperand_eq_ofNat, hbounded h2, boundOperand_eq_ofNat]
  · rw [hadvance (eq_opAdvance h0 h1 h2)]

/-- An instant reads of the command signals `cmd_valid` and the decoded command only. -/
theorem instant_congr {p q : Pins} (hr : p.rst = q.rst) (hv : p.cmdValid = q.cmdValid) (hready : p.rspReady = q.rspReady)
    (hd : decode p.word = decode q.word) (s : State) : instant p s = instant q s := by
  simp only [instant, hr, hv, hready, hd]

/-- Settles O3: the two samples stand for the same command. -/
theorem ignoredBitsChangeNothing : Obligations.IgnoredBitsChangeNothing := by
  intro p q s hr hv hready hop hseed hbounded hadvance
  exact instant_congr hr hv hready (decode_word_congr hop hseed hbounded hadvance) s

/-! The command words of transcript lines -/

theorem wf_seed_iff {a b : Nat} : (Line.seed a b).wf = true ↔ a < 2 ^ 64 ∧ b < 2 ^ 64 := by
  simp [Line.wf]

theorem wf_next_iff {v : Nat} : (Line.next v).wf = true ↔ v < 2 ^ 32 := by
  simp [Line.wf]

theorem wf_nextBounded_iff {b v : Nat} : (Line.nextBounded b v).wf = true ↔ b < 2 ^ 32 ∧ v < 2 ^ 32 := by
  simp [Line.wf]

theorem wf_advance_iff {d : Int} : (Line.advance d).wf = true ↔ -2147483648 ≤ d ∧ d ≤ 2147483647 := by
  simp [Line.wf]

/-- The sign extension of the `<i32>` of `advance` is its value modulo 2^64 (R48). -/
theorem signExtend_toNat {d : Int} (hlow : -2147483648 ≤ d) (hhigh : d ≤ 2147483647) :
    (((BitVec.ofInt 32 d).signExtend 64).toNat : Int) = d % 2 ^ 64 := by
  have hint : (BitVec.ofInt 32 d).toInt = d := by
    rw [BitVec.toInt_ofInt]
    exact Int.bmod_eq_of_le (by omega) (by omega)
  rw [BitVec.signExtend, hint, BitVec.toNat_ofInt]
  exact Int.toNat_of_nonneg (Int.emod_nonneg _ (by decide))

/-- A numeral in the range of its type is the number of its word (R44). -/
theorem toNat_ofNat_of_lt {w n : Nat} (h : n < 2 ^ w) : (BitVec.ofNat w n).toNat = n :=
  (BitVec.toNat_ofNat ..).trans (Nat.mod_eq_of_lt h)

/-- A bound is driven on `cmd_a` as its own number (R39, R47). -/
theorem boundToOperand_toNat (bound : U32) : (boundToOperand bound).toNat = bound.toNat :=
  BitVec.toNat_setWidth_of_le (by decide)

/-- Settles O5: a numeral in range is the number of its word, and the command word is the number of its fields. -/
theorem transcriptLinesAreCommands : Obligations.TranscriptLinesAreCommands := by
  refine ⟨fun a b hwf => ⟨?_, rfl⟩, fun v hwf => ⟨rfl, rfl, ?_⟩, fun b v hwf => ⟨?_, rfl, ?_⟩, fun d hwf => ⟨?_, rfl⟩⟩
  · obtain ⟨ha, hb⟩ := wf_seed_iff.mp hwf
    calc (lineWord (.seed a b)).toNat
        = (BitVec.ofNat 64 b).toNat * 2 ^ 66 + (BitVec.ofNat 64 a).toNat * 2 ^ 2 + 0 := commandWord_toNat ..
      _ = b * 2 ^ 66 + a * 2 ^ 2 + 0 := by rw [toNat_ofNat_of_lt ha, toNat_ofNat_of_lt hb]
  · exact toNat_ofNat_of_lt (wf_next_iff.mp hwf)
  · obtain ⟨hb, -⟩ := wf_nextBounded_iff.mp hwf
    calc (lineWord (.nextBounded b v)).toNat
        = 0 * 2 ^ 66 + (boundToOperand (BitVec.ofNat 32 b)).toNat * 2 ^ 2 + 2 := commandWord_toNat ..
      _ = b * 2 ^ 2 + 2 := by rw [boundToOperand_toNat, toNat_ofNat_of_lt hb, Nat.zero_mul, Nat.zero_add]
  · obtain ⟨-, hv⟩ := wf_nextBounded_iff.mp hwf
    exact toNat_ofNat_of_lt hv
  · obtain ⟨hlow, hhigh⟩ := wf_advance_iff.mp hwf
    have hword : (lineWord (.advance d)).toNat = 0 * 2 ^ 66 + ((BitVec.ofInt 32 d).signExtend 64).toNat * 2 ^ 2 + 3 :=
      commandWord_toNat ..
    have hdelta := signExtend_toNat hlow hhigh
    omega

/-! The text of a transcript -/

/-- A text without `-` is read as a number without sign. -/
theorem parseInt_of_not_mem {cs : List Char} (h : '-' ∉ cs) : parseInt cs = (parseNat cs).map fun n => (n : Int) := by
  cases cs with
  | nil => rfl
  | cons c rest =>
    rw [List.mem_cons, not_or] at h
    exact if_neg (Ne.symm h.1)

/-- A signed numeral written is the number read, and holds no separator (R44). -/
theorem printInt_facts {d : Int} (h : d.natAbs < 2 ^ 64) :
    parseInt (printInt d) = some d ∧ ' ' ∉ printInt d ∧ '\n' ∉ printInt d := by
  obtain ⟨hparse, hspace, hfeed, hsign⟩ := printNat_facts d.natAbs h
  by_cases hd : d < 0
  · have hprint : printInt d = '-' :: printNat d.natAbs := if_pos hd
    have hread : parseInt ('-' :: printNat d.natAbs) = (parseNat (printNat d.natAbs)).map fun n => -(n : Int) := rfl
    rw [hprint, hread, hparse]
    exact ⟨congrArg some (show -(d.natAbs : Int) = d by omega), by simp [hspace], by simp [hfeed]⟩
  · have hprint : printInt d = printNat d.natAbs := if_neg hd
    rw [hprint, parseInt_of_not_mem hsign, hparse]
    exact ⟨congrArg some (show (d.natAbs : Int) = d by omega), hspace, hfeed⟩

/-! What each keyword makes of its fields (R37, R45 to R48) -/

theorem lineOfFields_seed (x y : List Char) :
    lineOfFields [kwSeed, x, y] = (parseNat x).bind fun a => (parseNat y).map fun b => .seed a b := rfl

theorem lineOfFields_next (x : List Char) : lineOfFields [kwNext, x] = (parseNat x).map .next := rfl

theorem lineOfFields_nextBounded (x y : List Char) :
    lineOfFields [kwNextBounded, x, y] = (parseNat x).bind fun b => (parseNat y).map fun v => .nextBounded b v := rfl

theorem lineOfFields_advance (x : List Char) : lineOfFields [kwAdvance, x] = (parseInt x).map .advance := rfl

/-- A keyword and one field, with one space between them, are the well-formed line they spell. -/
theorem parseLine_two {kw x : List Char} {l : Line} (hkw : ' ' ∉ kw) (hx : ' ' ∉ x) (h : lineOfFields [kw, x] = some l)
    (hwf : l.wf = true) : parseLine (kw ++ ' ' :: x) = some l := by
  rw [parseLine, pieces_append _ _ _ hkw, pieces_of_not_mem _ _ hx, h]
  exact Option.filter_some_pos hwf

theorem parseLine_three {kw x y : List Char} {l : Line} (hkw : ' ' ∉ kw) (hx : ' ' ∉ x) (hy : ' ' ∉ y)
    (h : lineOfFields [kw, x, y] = some l) (hwf : l.wf = true) : parseLine (kw ++ ' ' :: (x ++ ' ' :: y)) = some l := by
  rw [parseLine, pieces_append _ _ _ hkw, pieces_append _ _ _ hx, pieces_of_not_mem _ _ hy, h]
  exact Option.filter_some_pos hwf

/-- A well-formed line is written as one text line, which reads back as that line (R44 to R48). -/
theorem printLine_facts {l : Line} (hwf : l.wf = true) :
    ∃ cs, printLine l = cs ++ ['\n'] ∧ '\n' ∉ cs ∧ parseLine cs = some l := by
  cases l with
  | seed a b =>
    obtain ⟨ha, hb⟩ := wf_seed_iff.mp hwf
    obtain ⟨hparseA, hspaceA, hfeedA, -⟩ := printNat_facts a ha
    obtain ⟨hparseB, hspaceB, hfeedB, -⟩ := printNat_facts b hb
    have hfields : lineOfFields [kwSeed, printNat a, printNat b] = some (.seed a b) := by
      rw [lineOfFields_seed, hparseA, hparseB]; rfl
    exact ⟨kwSeed ++ ' ' :: (printNat a ++ ' ' :: printNat b), by simp [printLine], by simp [kwSeed, hfeedA, hfeedB],
      parseLine_three (by decide) hspaceA hspaceB hfields hwf⟩
  | next v =>
    have hv := wf_next_iff.mp hwf
    obtain ⟨hparse, hspace, hfeed, -⟩ := printNat_facts v (by omega)
    have hfields : lineOfFields [kwNext, printNat v] = some (.next v) := by
      rw [lineOfFields_next, hparse]; rfl
    exact ⟨kwNext ++ ' ' :: printNat v, by simp [printLine], by simp [kwNext, hfeed],
      parseLine_two (by decide) hspace hfields hwf⟩
  | nextBounded b v =>
    obtain ⟨hb, hv⟩ := wf_nextBounded_iff.mp hwf
    obtain ⟨hparseB, hspaceB, hfeedB, -⟩ := printNat_facts b (by omega)
    obtain ⟨hparseV, hspaceV, hfeedV, -⟩ := printNat_facts v (by omega)
    have hfields : lineOfFields [kwNextBounded, printNat b, printNat v] = some (.nextBounded b v) := by
      rw [lineOfFields_nextBounded, hparseB, hparseV]; rfl
    exact ⟨kwNextBounded ++ ' ' :: (printNat b ++ ' ' :: printNat v), by simp [printLine],
      by simp [kwNextBounded, hfeedB, hfeedV], parseLine_three (by decide) hspaceB hspaceV hfields hwf⟩
  | advance d =>
    obtain ⟨hlow, hhigh⟩ := wf_advance_iff.mp hwf
    obtain ⟨hparse, hspace, hfeed⟩ := printInt_facts (d := d) (by omega)
    have hfields : lineOfFields [kwAdvance, printInt d] = some (.advance d) := by
      rw [lineOfFields_advance, hparse]; rfl
    exact ⟨kwAdvance ++ ' ' :: printInt d, by simp [printLine], by simp [kwAdvance, hfeed],
      parseLine_two (by decide) hspace hfields hwf⟩

/-! Cutting a text into lines -/

theorem pieces_ne_nil (sep : Char) (cs : List Char) : pieces sep cs ≠ [] := by
  cases cs with
  | nil => simp [pieces]
  | cons c cs =>
    rw [pieces]
    split
    · simp
    · split <;> simp

theorem parseLines_cons (cs : List Char) {rest : List (List Char)} (h : rest ≠ []) :
    parseLines (cs :: rest) = (parseLine cs).bind fun l => (parseLines rest).map fun ls => l :: ls := by
  cases rest with
  | nil => exact absurd rfl h
  | cons next rest => rfl

/-- A transcript is its first line, ended by a line feed, and the transcript after it (R44). -/
theorem parseTranscript_append {cs : List Char} (h : '\n' ∉ cs) (text : List Char) :
    parseTranscript (cs ++ '\n' :: text) = (parseLine cs).bind fun l => (parseTranscript text).map fun ls => l :: ls := by
  rw [parseTranscript, pieces_append _ _ _ h, parseLines_cons _ (pieces_ne_nil _ _), parseTranscript]

/-- Settles O6: induction over the lines, each cut off at its line feed; no lines are the empty text (log entry 11). -/
theorem transcriptReadsBackWhatItWrites : Obligations.TranscriptReadsBackWhatItWrites := by
  intro ls hwf
  induction ls with
  | nil => rfl
  | cons l ls ih =>
    obtain ⟨cs, hprint, hfeed, hparse⟩ := printLine_facts (hwf l List.mem_cons_self)
    have hrest : parseTranscript (printTranscript ls) = some ls := ih fun k hk => hwf k (List.mem_cons_of_mem l hk)
    calc parseTranscript (printTranscript (l :: ls))
        = parseTranscript (cs ++ '\n' :: printTranscript ls) := by simp [printTranscript, hprint]
      _ = some (l :: ls) := by rw [parseTranscript_append hfeed, hparse, hrest]; rfl

/-! Instants -/

/-- An idle block with no command presented waits (R35). -/
theorem step_idle_waits {s : State} (hr : s.pins.rst = false) (hp : s.phase = .idle) (hv : s.pins.cmdValid = false) :
    step s = .next s.popInput := by
  simp [step, instant, hr, hp, hv]

/-- A waiting response is held for a host that is not ready (R41). -/
theorem step_responding_holds {s : State} {r : Response} (hr : s.pins.rst = false) (hp : s.phase = .responding r)
    (hready : s.pins.rspReady = false) : step s = .next s.popInput := by
  simp [step, instant, hr, hp, hready]

/-- Settles O43: `step_idle_waits` at the sample on top of the host's list. -/
theorem idleBlockKeepsItsState : Obligations.IdleBlockKeepsItsState := by
  intro s p rest hin hp hr hv
  obtain ⟨rfl, hpop⟩ := sample_of_inputs hin
  rw [step_idle_waits hr hp hv, hpop]

/-- Settles O47: a waiting response is held, or delivered, as `rsp_ready` says. -/
theorem responseIsHeldUntilDelivery : Obligations.ResponseIsHeldUntilDelivery := by
  intro s r p rest hin hresponse hr
  obtain ⟨rfl, hpop⟩ := sample_of_inputs hin
  have hp : s.phase = .responding r := (response_eq_some_iff s r).mp hresponse
  constructor
  · intro hready
    exact ⟨_, step_responding_holds hr hp hready, hpop, hresponse⟩
  · intro hready
    refine ⟨_, step_responding_delivers hr hp hready, rfl, rfl, rfl, rfl, rfl, ?_⟩
    rw [hpop]
    rfl

/-- Settles O51: every case of a step but an accepted command names its next state, and a command's is that of `exec_effect`. -/
theorem noStepStops : Obligations.NoStepStops := by
  intro s
  obtain ⟨-, e⟩ | ⟨-, -, -, e⟩ | ⟨-, -, -, e⟩ | ⟨r, -, -, -, e⟩ | ⟨r, -, -, -, e⟩ | ⟨bound, -, -, e⟩ := step_cases s
  · exact ⟨_, e⟩
  · obtain ⟨gen', phase', -, hexec⟩ := exec_effect (decode s.pins.word) s.config.mult s.gen
    exact ⟨_, e.trans (hexec s.popInput rfl rfl)⟩
  · exact ⟨_, e⟩
  · exact ⟨_, e⟩
  · exact ⟨_, e⟩
  · exact ⟨_, e⟩

end Sys2Proof.Machine
end

section
/-! The primitives family (40_primitives.md): the LCG step, the rotation, the output transform and the jump loop. -/

namespace Sys2Proof.Machine

/-! The LCG step (R52) -/

/-- The step in the form of R57's `f`. -/
theorem lcgStep_eq (mult s c : U64) : lcgStep mult s c = mult * s + c :=
  congrArg (· + c) (BitVec.mul_comm s mult)

theorem lcgStep_zero (mult c : U64) : lcgStep mult 0 c = c := by
  rw [lcgStep, zero_mul, zero_add]

/-- Settles O11: word arithmetic is arithmetic modulo 2^64. -/
theorem lcgStepIsAffine : Obligations.LcgStepIsAffine := by
  refine ⟨fun mult s c => ?_, lcgStep_zero, by decide⟩
  rw [lcgStep, BitVec.toNat_add, BitVec.toNat_mul]

/-! The rotation (R53) -/

theorem rotr32_zero (x : U32) : rotr32 x 0 = x :=
  if_pos rfl

theorem rotr32_of_ne_zero (x : U32) {r : BitVec 5} (h : r ≠ 0) :
    rotr32 x r = (x >>> r.toNat) ||| (x <<< (32 - r.toNat)) :=
  if_neg h

/-- The model's rotation, with its case of its own for 0, is the library's. -/
theorem rotr32_eq_rotateRight (x : U32) (r : BitVec 5) : rotr32 x r = x.rotateRight r.toNat := by
  by_cases h : r = 0
  · rw [h, rotr32_zero, BitVec.rotateRight_def]
    simp
  · rw [rotr32_of_ne_zero x h, BitVec.rotateRight_def, Nat.mod_eq_of_lt r.isLt]

theorem getLsbD_rotr32 (x : U32) (r : BitVec 5) {k : Nat} (hk : k < 32) :
    (rotr32 x r).getLsbD k = x.getLsbD ((k + r.toNat) % 32) := by
  have hr : r.toNat < 32 := r.isLt
  rw [rotr32_eq_rotateRight, BitVec.getLsbD_rotateRight_of_lt hr]
  by_cases hwrap : k < 32 - r.toNat
  · rw [show (k + r.toNat) % 32 = r.toNat + k by omega]
    simp [hwrap]
  · rw [show (k + r.toNat) % 32 = k - (32 - r.toNat) by omega]
    simp [hwrap, hk]

/-- Settles O8: the bits are `getLsbD_rotr32`, the two forms are the branches of the definition. -/
theorem rotationBitByBit : Obligations.RotationBitByBit := by
  refine ⟨fun x r k => getLsbD_rotr32 x r, rotr32_zero, fun x r hr => ?_, by decide⟩
  have hne : r ≠ 0 := by
    rintro rfl
    exact absurd hr (by decide)
  exact rotr32_of_ne_zero x hne

/-- A rotation loses no bit: bit `j` of the word is bit `(j - r) mod 32` of the rotated word. -/
theorem rotr32_injective (r : BitVec 5) : Function.Injective fun x : U32 => rotr32 x r := by
  intro x y hxy
  refine BitVec.eq_of_getLsbD_eq fun j hj => ?_
  have hr : r.toNat < 32 := r.isLt
  have hk : (j + (32 - r.toNat)) % 32 < 32 := Nat.mod_lt _ (by decide)
  have hbit := congrArg (·.getLsbD ((j + (32 - r.toNat)) % 32)) hxy
  simp only [getLsbD_rotr32 _ r hk] at hbit
  rwa [show ((j + (32 - r.toNat)) % 32 + r.toNat) % 32 = j by omega] at hbit

/-! The output transform (R54, R55) -/

/-- `xorshifted` of R54. -/
def xorshifted (s : U64) : U32 :=
  (((s >>> 18) ^^^ s) >>> 27).setWidth 32

/-- `rotation = s[63:59]` of R54. -/
def rotation (s : U64) : BitVec 5 :=
  (s >>> 59).setWidth 5

theorem xshRr_eq (s : U64) : xshRr s = rotr32 (xorshifted s) (rotation s) := rfl

theorem rotation_toNat (s : U64) : (rotation s).toNat = s.toNat / 2 ^ 59 := by
  have hs := s.isLt
  rw [rotation, BitVec.toNat_setWidth, BitVec.toNat_ushiftRight, Nat.shiftRight_eq_div_pow]
  omega

theorem getLsbD_rotation (s : U64) {j : Nat} (hj : j < 5) : (rotation s).getLsbD j = s.getLsbD (j + 59) := by
  simp [rotation, hj, Nat.add_comm]

/-- For `j` from 19 on the second bit is one past the word, and false (R55). -/
theorem getLsbD_xorshifted (s : U64) {j : Nat} (hj : j < 32) :
    (xorshifted s).getLsbD j = (s.getLsbD (j + 27) ^^ s.getLsbD (j + 45)) := by
  rw [xorshifted, BitVec.getLsbD_setWidth, BitVec.getLsbD_ushiftRight, BitVec.getLsbD_xor, BitVec.getLsbD_ushiftRight,
    show 18 + (27 + j) = j + 45 by omega, Nat.add_comm 27 j, decide_eq_true hj, Bool.true_and, Bool.xor_comm]

/-- Settles O9: `getLsbD_rotr32` and then `getLsbD_xorshifted`. -/
theorem outputBitByBit : Obligations.OutputBitByBit := by
  intro s k hk j
  have hj : j < 32 := Nat.mod_lt _ (by decide)
  have hbit : (xshRr s).getLsbD k = (s.getLsbD (j + 27) ^^ s.getLsbD (j + 45)) := by
    rw [xshRr_eq, getLsbD_rotr32 _ _ hk, rotation_toNat, getLsbD_xorshifted s hj]
  refine ⟨fun _ => hbit, fun hhigh => ?_⟩
  rw [hbit, BitVec.getLsbD_of_ge s (j + 45) (by omega), Bool.xor_false]

/-- The output is a function of `s[63:27]` (R55). -/
theorem xshRr_congr {s t : U64} (h : s >>> 27 = t >>> 27) : xshRr s = xshRr t := by
  have hbit (i : Nat) : s.getLsbD (27 + i) = t.getLsbD (27 + i) := by
    simpa only [BitVec.getLsbD_ushiftRight] using congrArg (·.getLsbD i) h
  have hx : xorshifted s = xorshifted t := BitVec.eq_of_getLsbD_eq fun j hj => by
    rw [getLsbD_xorshifted s hj, getLsbD_xorshifted t hj, show j + 27 = 27 + j by omega,
      show j + 45 = 27 + (j + 18) by omega, hbit, hbit]
  have hr : rotation s = rotation t := BitVec.eq_of_getLsbD_eq fun j hj => by
    rw [getLsbD_rotation s hj, getLsbD_rotation t hj, show j + 59 = 27 + (j + 32) by omega, hbit]
  rw [xshRr_eq, xshRr_eq, hx, hr]

/-- The bits of a state can be recovered from the top down: the upper five are the rotation, each of the next 32 is a bit of
`xorshifted` xor the bit 18 places above it, which is known by then, and the lower 27 are given (R55). -/
theorem eq_of_xorshifted_eq {s t : U64} (hrot : rotation s = rotation t) (hx : xorshifted s = xorshifted t)
    (hlow : s.setWidth 27 = t.setWidth 27) : s = t := by
  have hbits (d : Nat) : ∀ i, 64 - i = d → s.getLsbD i = t.getLsbD i := by
    induction d using Nat.strong_induction_on with
    | _ d ih =>
      intro i hd
      rcases Nat.lt_or_ge i 27 with hi | hi
      · simpa [hi] using congrArg (·.getLsbD i) hlow
      rcases Nat.lt_or_ge i 59 with hmid | htop
      · have habove : s.getLsbD (i + 18) = t.getLsbD (i + 18) := ih (64 - (i + 18)) (by omega) _ rfl
        have hbit := congrArg (·.getLsbD (i - 27)) hx
        simp only [getLsbD_xorshifted _ (show i - 27 < 32 by omega), show i - 27 + 27 = i by omega,
          show i - 27 + 45 = i + 18 by omega, habove] at hbit
        exact Bool.xor_left_inj.mp hbit
      rcases Nat.lt_or_ge i 64 with hi64 | hpast
      · have hbit := congrArg (·.getLsbD (i - 59)) hrot
        simpa only [getLsbD_rotation _ (show i - 59 < 5 by omega), show i - 59 + 59 = i by omega] using hbit
      · rw [BitVec.getLsbD_of_ge s i hpast, BitVec.getLsbD_of_ge t i hpast]
  exact BitVec.eq_of_getLsbD_eq fun i _ => hbits _ i rfl

/-- What the output leaves free of the state: the rotation and the low 27 bits. -/
def outputRest (s : U64) : BitVec 5 × BitVec 27 :=
  (rotation s, s.setWidth 27)

theorem xshRr_outputRest_injective : Function.Injective fun s : U64 => (xshRr s, outputRest s) := by
  intro s t h
  obtain ⟨hout, hrest⟩ := Prod.mk.inj h
  obtain ⟨hrot, hlow⟩ := Prod.mk.inj hrest
  rw [xshRr_eq, xshRr_eq, hrot] at hout
  exact eq_of_xorshifted_eq hrot (rotr32_injective _ hout) hlow

theorem finite_bitVec (w : Nat) : Finite (BitVec w) :=
  Finite.of_injective _ BitVec.toFin_injective

theorem card_bitVec (w : Nat) : Nat.card (BitVec w) = 2 ^ w :=
  (Nat.card_congr BitVec.equivFin.toEquiv).trans (Nat.card_fin _)

theorem xshRr_outputRest_bijective : Function.Bijective fun s : U64 => (xshRr s, outputRest s) := by
  have := finite_bitVec
  refine xshRr_outputRest_injective.bijective_of_nat_card_le (le_of_eq ?_)
  rw [Nat.card_prod, Nat.card_prod, card_bitVec, card_bitVec, card_bitVec, card_bitVec, ← pow_add, ← pow_add]

/-- The states of one output are told apart by `outputRest`, which takes every value on them. -/
theorem card_output (v : U32) : Nat.card { s : U64 // xshRr s = v } = 2 ^ 32 := by
  have hbij : Function.Bijective fun s : { s : U64 // xshRr s = v } => outputRest s.1 := by
    constructor
    · rintro ⟨s, hs⟩ ⟨t, ht⟩ h
      exact Subtype.ext (xshRr_outputRest_injective (Prod.ext (hs.trans ht.symm) h))
    · intro rest
      obtain ⟨s, hs⟩ := xshRr_outputRest_bijective.surjective (v, rest)
      obtain ⟨hout, hrest⟩ := Prod.mk.inj hs
      exact ⟨⟨s, hout⟩, hrest⟩
  rw [Nat.card_eq_of_bijective _ hbij, Nat.card_prod, card_bitVec, card_bitVec, ← pow_add]

/-- Settles O10: the output sees `s >>> 27` only, and `card_output` counts its states. -/
theorem outputIsUniform : Obligations.OutputIsUniform := by
  have hcongr (s t : U64) (h : s.toNat / 2 ^ 27 = t.toNat / 2 ^ 27) : xshRr s = xshRr t := by
    refine xshRr_congr (BitVec.eq_of_toNat_eq ?_)
    rw [BitVec.toNat_ushiftRight, BitVec.toNat_ushiftRight, Nat.shiftRight_eq_div_pow, Nat.shiftRight_eq_div_pow, h]
  refine ⟨hcongr, fun s hs => ?_, card_output⟩
  calc xshRr s
      = xshRr 0 := hcongr s 0 ((Nat.div_eq_of_lt hs).trans (Nat.zero_div _).symm)
    _ = 0 := by decide

/-! The jump loop (R56, R57) -/

theorem jumpAfter_succ (m c n : U64) (k : Nat) :
    jumpAfter m c n (k + 1) = jumpBit (n.getLsbD k) (jumpAfter m c n k) := rfl

/-- The map that `curMult` and `curInc` are the coefficients of. -/
def Jump.cur (j : Jump) (x : U64) : U64 :=
  j.curMult * x + j.curInc

/-- The map that `accMult` and `accInc` are the coefficients of. -/
def Jump.acc (j : Jump) (x : U64) : U64 :=
  j.accMult * x + j.accInc

/-- The squaring identity of R57: an iteration composes the running map with itself. -/
theorem jumpBit_cur (bit : Bool) (j : Jump) (x : U64) : (jumpBit bit j).cur x = j.cur (j.cur x) := by
  simp only [Jump.cur, jumpBit]
  ring

/-- The composition identity of R57: a set bit composes the accumulated map with the running map. -/
theorem jumpBit_acc_true (j : Jump) (x : U64) : (jumpBit true j).acc x = j.cur (j.acc x) := by
  simp only [Jump.cur, Jump.acc, jumpBit, if_true]
  ring

theorem jumpBit_accMult_false (j : Jump) : (jumpBit false j).accMult = j.accMult := rfl

theorem jumpBit_accInc_false (j : Jump) : (jumpBit false j).accInc = j.accInc := rfl

theorem jumpBit_acc_false (j : Jump) (x : U64) : (jumpBit false j).acc x = j.acc x := rfl

theorem jumpAfter_cur (m c n : U64) (k : Nat) (x : U64) :
    (jumpAfter m c n k).cur x = (fun y : U64 => m * y + c)^[2 ^ k] x := by
  induction k generalizing x with
  | zero => rfl
  | succ k ih => rw [jumpAfter_succ, jumpBit_cur, ih, ih, ← Function.iterate_add_apply, Nat.pow_succ, Nat.mul_two]

theorem jumpAfter_acc (m c n : U64) (k : Nat) (x : U64) :
    (jumpAfter m c n k).acc x = (fun y : U64 => m * y + c)^[n.toNat % 2 ^ k] x := by
  induction k with
  | zero =>
    rw [pow_zero, Nat.mod_one]
    simp [Jump.acc, jumpAfter]
  | succ k ih =>
    have hmod : n.toNat % 2 ^ (k + 1) = 2 ^ k * (n.getLsbD k).toNat + n.toNat % 2 ^ k := by
      rw [Nat.mod_pow_succ, Nat.add_comm, BitVec.getLsbD, Nat.toNat_testBit]
    rw [jumpAfter_succ, hmod]
    cases n.getLsbD k with
    | false => rw [jumpBit_acc_false, ih, Bool.toNat_false, Nat.mul_zero, Nat.zero_add]
    | true => rw [jumpBit_acc_true, ih, jumpAfter_cur, ← Function.iterate_add_apply, Bool.toNat_true, Nat.mul_one]

/-- The result is the accumulators after all 64 bits (R56). -/
theorem affinePow_eq (m c n : U64) :
    affinePow m c n = ((jumpAfter m c n 64).accMult, (jumpAfter m c n 64).accInc) := rfl

/-- `affine_pow(m, c, n)` is the map of `n` steps (R57). -/
theorem affinePow_apply (m c n x : U64) :
    (affinePow m c n).1 * x + (affinePow m c n).2 = (fun y : U64 => m * y + c)^[n.toNat] x :=
  (jumpAfter_acc m c n 64 x).trans (by rw [Nat.mod_eq_of_lt n.isLt])

/-- The closed form of the iterate (R57). -/
theorem iterate_affine (m c : U64) (k : Nat) (x : U64) :
    (fun y : U64 => m * y + c)^[k] x = m ^ k * x + c * ∑ i ∈ Finset.range k, m ^ i := by
  induction k with
  | zero => simp
  | succ k ih =>
    rw [Function.iterate_succ_apply', ih, Finset.sum_range_succ']
    simp only [pow_succ', ← Finset.mul_sum]
    ring

theorem affinePow_snd (m c n : U64) : (affinePow m c n).2 = c * ∑ i ∈ Finset.range n.toNat, m ^ i := by
  have h := (affinePow_apply m c n 0).trans (iterate_affine m c n.toNat 0)
  simpa using h

theorem affinePow_fst (m c n : U64) : (affinePow m c n).1 = m ^ n.toNat := by
  have h := (affinePow_apply m c n 1).trans (iterate_affine m c n.toNat 1)
  rw [mul_one, mul_one, affinePow_snd] at h
  exact add_right_cancel h

/-- A word as a number, taken back into the ring of words. -/
theorem natCast_toNat (x : U64) : ((x.toNat : Nat) : U64) = x := by
  simp

/-- Settles O12: the registers by induction over the bits, the closed forms from the iterate at 0 and at 1. -/
theorem affinePowComputesTheIterate : Obligations.AffinePowComputesTheIterate := by
  intro m c n f
  refine ⟨fun k _ x => ⟨jumpAfter_cur m c n k x, jumpAfter_acc m c n k x⟩, affinePow_apply m c n, ?_, ?_, fun x => ?_,
    fun accMult accInc curMult curInc x => ?_⟩
  · calc (affinePow m c n).1.toNat
        = ((m.toNat ^ n.toNat : Nat) : U64).toNat := by rw [affinePow_fst, Nat.cast_pow, natCast_toNat]
      _ = m.toNat ^ n.toNat % 2 ^ 64 := BitVec.toNat_ofNat ..
  · calc (affinePow m c n).2.toNat
        = ((c.toNat * ∑ i ∈ Finset.range n.toNat, m.toNat ^ i : Nat) : U64).toNat := by
          simp only [affinePow_snd, Nat.cast_mul, Nat.cast_sum, Nat.cast_pow, natCast_toNat]
      _ = (c.toNat * ∑ i ∈ Finset.range n.toNat, m.toNat ^ i) % 2 ^ 64 := BitVec.toNat_ofNat ..
  · exact (jumpBit_cur false ⟨1, 0, m, c⟩ x).symm
  · exact (jumpBit_acc_true ⟨accMult, accInc, curMult, curInc⟩ x).symm

/-! Early exit (R58) -/

/-- Every bit of `n` from `i` on is 0, and an iteration for such a bit leaves the accumulators. -/
theorem jumpAfter_acc_stable (m c n : U64) {i j : Nat} (hij : i ≤ j) (hn : n.toNat < 2 ^ i) :
    (jumpAfter m c n j).accMult = (jumpAfter m c n i).accMult ∧
      (jumpAfter m c n j).accInc = (jumpAfter m c n i).accInc := by
  induction j, hij using Nat.le_induction with
  | base => exact ⟨rfl, rfl⟩
  | succ k hik ih =>
    have hbit : n.getLsbD k = false := Nat.testBit_lt_two_pow (hn.trans_le (Nat.pow_le_pow_right (by decide) hik))
    rw [jumpAfter_succ, hbit, jumpBit_accMult_false, jumpBit_accInc_false]
    exact ih

/-- The accumulators once no bit of `n` remains are the result (R58). -/
theorem affinePow_eq_of_lt (m c n : U64) {i : Nat} (hi : i ≤ 64) (hn : n.toNat < 2 ^ i) :
    affinePow m c n = ((jumpAfter m c n i).accMult, (jumpAfter m c n i).accInc) := by
  obtain ⟨hmult, hinc⟩ := jumpAfter_acc_stable m c n hi hn
  rw [affinePow_eq, hmult, hinc]

theorem affinePow_zero (m c : U64) : affinePow m c 0 = (1, 0) :=
  affinePow_eq_of_lt m c 0 (i := 0) (by decide) (by decide)

theorem affinePow_one (m c : U64) : affinePow m c 1 = (m, c) := by
  rw [affinePow_eq_of_lt m c 1 (i := 1) (by decide) (by decide)]
  simp [jumpAfter, jumpBit]

/-- Settles O13, from `jumpAfter_acc_stable`; 0 and 1 need no bit and one bit. -/
theorem jumpLoopMayStopEarly : Obligations.JumpLoopMayStopEarly := by
  refine ⟨fun m c n i j hij hj hn => ?_, affinePow_zero, affinePow_one⟩
  obtain ⟨hmult, hinc⟩ := jumpAfter_acc_stable m c n hij hn
  exact ⟨hmult, hinc, affinePow_eq_of_lt m c n (hij.trans hj) hn⟩

/-! Invertibility of the step under an odd `MULT` (R59) -/

theorem two_pow_width : (2 : U64) ^ 64 = 0 := by
  calc (2 : U64) ^ 64 = ((2 ^ 64 : Nat) : U64) := (Nat.cast_pow 2 64).symm
    _ = 0 := rfl

theorem two_dvd_sub_one {mult : U64} (hodd : mult.getLsbD 0 = true) : 2 ∣ mult - 1 := by
  refine ⟨mult >>> 1, ?_⟩
  have h2 : mult.toNat % 2 = 1 := by simpa [BitVec.getLsbD, Nat.testBit_zero] using hodd
  have hs : (mult >>> 1).toNat = mult.toNat / 2 := by
    rw [BitVec.toNat_ushiftRight, Nat.shiftRight_eq_div_pow, pow_one]
  bv_omega

/-- An odd word is 1 plus a nilpotent word. -/
theorem isUnit_of_odd {mult : U64} (hodd : mult.getLsbD 0 = true) : IsUnit mult := by
  obtain ⟨q, hq⟩ := two_dvd_sub_one hodd
  have hnil : IsNilpotent (mult - 1) := ⟨64, by rw [hq, mul_pow, two_pow_width, zero_mul]⟩
  simpa using hnil.isUnit_add_one

/-- Squaring a map that is the identity modulo `d` and has an odd factor gives one that is so modulo `2 * d`. -/
theorem jumpBit_cur_dvd {d : U64} {j : Jump} (bit : Bool) (hodd : 2 ∣ j.curMult - 1) (hmult : d ∣ j.curMult - 1)
    (hinc : d ∣ j.curInc) :
    2 ∣ (jumpBit bit j).curMult - 1 ∧ d * 2 ∣ (jumpBit bit j).curMult - 1 ∧ d * 2 ∣ (jumpBit bit j).curInc := by
  have hsquare : (jumpBit bit j).curMult - 1 = (j.curMult - 1) * (j.curMult + 1) := by
    simp only [jumpBit]
    ring
  have heven : 2 ∣ j.curMult + 1 := by
    rw [show j.curMult + 1 = j.curMult - 1 + 2 by ring]
    exact dvd_add hodd (dvd_refl 2)
  rw [hsquare]
  exact ⟨hodd.mul_right _, mul_dvd_mul hmult heven, mul_dvd_mul hinc heven⟩

/-- The running map after `k` bits is the identity modulo `2^k`. -/
theorem jumpAfter_cur_dvd {mult : U64} (hodd : mult.getLsbD 0 = true) (c n : U64) (k : Nat) :
    2 ∣ (jumpAfter mult c n k).curMult - 1 ∧ 2 ^ k ∣ (jumpAfter mult c n k).curMult - 1 ∧
      2 ^ k ∣ (jumpAfter mult c n k).curInc := by
  induction k with
  | zero =>
    rw [pow_zero]
    exact ⟨two_dvd_sub_one hodd, one_dvd _, one_dvd _⟩
  | succ k ih =>
    obtain ⟨hcur, hmult, hinc⟩ := ih
    rw [jumpAfter_succ, pow_succ]
    exact jumpBit_cur_dvd _ hcur hmult hinc

/-- 2^64 steps are the identity. -/
theorem iterate_two_pow_width {mult : U64} (hodd : mult.getLsbD 0 = true) (c s : U64) :
    (fun y : U64 => mult * y + c)^[2 ^ 64] s = s := by
  obtain ⟨-, hmult, hinc⟩ := jumpAfter_cur_dvd hodd c 0 64
  rw [two_pow_width, zero_dvd_iff] at hmult hinc
  rw [← jumpAfter_cur mult c 0, Jump.cur, sub_eq_zero.mp hmult, hinc, one_mul, add_zero]

/-- A jump by `k` and one by `2^64 - k` are 2^64 steps together, or none. -/
theorem affinePow_neg_affinePow {mult : U64} (hodd : mult.getLsbD 0 = true) (c k s : U64) :
    (affinePow mult c (-k)).1 * ((affinePow mult c k).1 * s + (affinePow mult c k).2) + (affinePow mult c (-k)).2 = s := by
  rw [affinePow_apply mult c k, affinePow_apply mult c (-k), ← Function.iterate_add_apply]
  by_cases hk : k = 0
  · rw [hk]
    rfl
  · have hsum : (-k).toNat + k.toNat = 2 ^ 64 := by bv_omega
    rw [hsum, iterate_two_pow_width hodd]

/-- The inverse step of R59 undoes the step from both sides. -/
theorem lcgStep_inverse {mult inverse : U64} (h : mult * inverse = 1) (s c : U64) :
    (lcgStep mult s c - c) * inverse = s ∧ lcgStep mult ((s - c) * inverse) c = s := by
  constructor
  · calc (lcgStep mult s c - c) * inverse
        = s * (mult * inverse) := by rw [lcgStep]; ring
      _ = s := by rw [h, mul_one]
  · calc lcgStep mult ((s - c) * inverse) c
        = (s - c) * (mult * inverse) + c := by rw [lcgStep]; ring
      _ = s := by rw [h, mul_one, sub_add_cancel]

theorem lcgStep_bijective {mult inverse : U64} (h : mult * inverse = 1) (c : U64) :
    Function.Bijective fun s => lcgStep mult s c :=
  Function.bijective_iff_has_inverse.mpr
    ⟨fun s => (s - c) * inverse, fun s => (lcgStep_inverse h s c).1, fun s => (lcgStep_inverse h s c).2⟩

/-- Settles O14: the inverse exists as an odd word is a unit, and gives the inverse step; 2^64 steps are the identity by the jump
loop's squarings. -/
theorem oddMultiplierIsInvertible : Obligations.OddMultiplierIsInvertible := by
  refine ⟨fun mult hodd => ?_, by decide⟩
  obtain ⟨inverse, hinverse⟩ := (isUnit_of_odd hodd).exists_right_inv
  refine ⟨⟨inverse, hinverse, lcgStep_inverse hinverse⟩, lcgStep_bijective hinverse, fun c s => ?_,
    affinePow_neg_affinePow hodd⟩
  simp only [lcgStep_eq]
  exact iterate_two_pow_width hodd c s

end Sys2Proof.Machine
end

section
/-! The SEED family (41_seed.md): the five steps, their closed form, and the selector's top bit. -/

namespace Sys2Proof.Machine

/-- Settles O15: `exec_seed`, with the words of `respond`, `setGen` and `seedGenerator` written out. -/
theorem seedRunsTheFiveSteps : Obligations.SeedRunsTheFiveSteps :=
  exec_seed

/-! The closed form (R61) -/

/-- The bit form of `inc` as a number: the shift leaves bit 0 clear, so setting it adds 1. -/
theorem shiftLeft_one_or_one_toNat (b : U64) : ((b <<< 1) ||| (1 : U64)).toNat = 2 * (b.toNat % 2 ^ 63) + 1 := by
  have hshift : (b <<< 1).toNat = 2 * (b.toNat % 2 ^ 63) := by
    rw [BitVec.toNat_shiftLeft, Nat.shiftLeft_eq]
    omega
  rw [BitVec.toNat_or, hshift]
  exact (Nat.two_pow_add_eq_or_of_lt (show 1 < 2 ^ 1 by decide) _).symm

theorem shiftLeft_one_or_one (b : U64) : (b <<< 1) ||| (1 : U64) = 2 * b + 1 := by
  apply BitVec.eq_of_toNat_eq
  rw [shiftLeft_one_or_one_toNat]
  bv_omega

/-- The first LCG step starts from 0 and leaves `inc`. -/
theorem seedGenerator_eq (mult a b : U64) :
    seedGenerator mult a b = { state := (2 * b + 1 + a) * mult + (2 * b + 1), inc := 2 * b + 1 } := by
  simp only [seedGenerator, lcgStep_zero, shiftLeft_one_or_one]
  rfl

theorem stateAfter_seed_gen (a b : U64) (s : State) :
    (stateAfter (.seed a b) s).gen = some (seedGenerator s.config.mult a b) := rfl

/-- Settles O16: the closed form of `seedGenerator`, and its instance `seed(0, 0)`. -/
theorem seedClosedForm : Obligations.SeedClosedForm := by
  refine ⟨fun a b s => ?_, fun s => ?_, by decide⟩
  · rw [exec_seed, seedGenerator_eq]
    rfl
  · rw [stateAfter_seed_gen, seedGenerator_eq, mul_zero, zero_add, add_zero, one_mul]

/-! The selector's top bit (R62) -/

/-- Under one `initial_state`, `state` is a function of `inc`, and `inc` of the selector's low 63 bits. -/
theorem seedGenerator_eq_iff (mult a b b' : U64) :
    seedGenerator mult a b = seedGenerator mult a b' ↔ b.toNat % 2 ^ 63 = b'.toNat % 2 ^ 63 := by
  have inc_eq_iff : (b <<< 1) ||| (1 : U64) = (b' <<< 1) ||| (1 : U64) ↔ b.toNat % 2 ^ 63 = b'.toNat % 2 ^ 63 := by
    rw [← BitVec.toNat_inj, shiftLeft_one_or_one_toNat, shiftLeft_one_or_one_toNat]
    omega
  rw [← inc_eq_iff]
  constructor
  · intro h
    exact congrArg GeneratorState.inc h
  · intro h
    simp only [seedGenerator, h]

/-- The new GeneratorState can be read off the state that SEED answers. -/
theorem exec_seed_eq_iff (a b a' b' : U64) (s : State) :
    exec (.seed a b) s = exec (.seed a' b') s ↔
      seedGenerator s.config.mult a b = seedGenerator s.config.mult a' b' := by
  constructor
  · intro h
    have hgen : (stateAfter (.seed a b) s).gen = (stateAfter (.seed a' b') s).gen := by simp only [stateAfter, h]
    rw [stateAfter_seed_gen, stateAfter_seed_gen] at hgen
    exact Option.some.inj hgen
  · intro h
    rw [exec_seed, exec_seed, h]

/-- Bits 62 to 0 of the selector are bits 63 to 1 of `inc`. -/
theorem seedGenerator_inc_getLsbD_succ (mult a b : U64) {k : Nat} (hk : k < 63) :
    (seedGenerator mult a b).inc.getLsbD (k + 1) = b.getLsbD k := by
  have hone : (1 : U64).getLsbD (k + 1) = false := by simp
  have hshift : (b <<< 1).getLsbD (k + 1) = b.getLsbD k := by
    rw [BitVec.getLsbD_shiftLeft, Nat.add_sub_cancel]
    simp only [show k + 1 < 64 by omega, show ¬ k + 1 < 1 by omega, decide_true, decide_false, Bool.not_false, Bool.true_and]
  rw [seedGenerator_inc, BitVec.getLsbD_or, hone, hshift, Bool.or_false]

/-- Settles O17: SEED's answer is decided by the selector's low 63 bits, which `inc` holds above a 1. -/
theorem seedDropsTheSelectorsTopBit : Obligations.SeedDropsTheSelectorsTopBit := by
  intro a b b' s
  constructor
  · rw [exec_seed_eq_iff, seedGenerator_eq_iff]
  · exact ⟨seedGenerator s.config.mult a b, stateAfter_seed_gen a b s, seedGenerator_inc_odd ..,
      fun k hk => seedGenerator_inc_getLsbD_succ _ _ _ hk⟩

end Sys2Proof.Machine
end

section
/-! The NEXT family (42_next.md): one draw, `n` draws, the corner cases and the period. -/

namespace Sys2Proof.Machine

/-! One NEXT and `n` NEXTs on a seeded block -/

theorem next_ne_seed (a b : U64) : Instr.next ≠ .seed a b :=
  Instr.noConfusion

/-- Settles O18: the words of `respond`, `setGen` and `draw` written out in `exec_next_seeded`, those of `raiseUnseeded` in
`exec_unseeded`. -/
theorem nextDrawsOnce : Obligations.NextDrawsOnce := by
  intro s
  constructor
  · intro g hg
    exact exec_next_seeded hg
  · intro hnone
    exact exec_unseeded next_ne_seed hnone

theorem stateAfter_next {s : State} {g : GeneratorState} (hg : s.gen = some g) :
    stateAfter .next s = respond .ok (candidate s.config.mult g 0) (s.setGen (g.after s.config.mult 1)) :=
  stateAfter_eq (exec_next_seeded hg)

/-- The last of `n + 1` NEXTs draws from the state `n` steps on (R67); its response takes the place of the ones before. -/
theorem stateAfter_next_iterate {s : State} {g : GeneratorState} (hg : s.gen = some g) (n : Nat) :
    (stateAfter .next)^[n + 1] s =
      respond .ok (candidate s.config.mult g n) (s.setGen (g.after s.config.mult (n + 1))) := by
  induction n with
  | zero => exact stateAfter_next hg
  | succ n ih =>
    have hgen : (respond .ok (candidate s.config.mult g n) (s.setGen (g.after s.config.mult (n + 1)))).gen =
        some (g.after s.config.mult (n + 1)) := rfl
    rw [Function.iterate_succ_apply', ih, stateAfter_next hgen, respond_config, State.setGen_config, candidate_after,
      after_after, Nat.add_zero]
    rfl

/-- After `n` NEXTs the GeneratorState is `n` LCG steps on. -/
theorem stateAfter_next_iterate_gen {s : State} {g : GeneratorState} (hg : s.gen = some g) (n : Nat) :
    ((stateAfter .next)^[n] s).gen = some (g.after s.config.mult n) := by
  cases n with
  | zero => exact hg
  | succ n => rw [stateAfter_next_iterate hg, respond_gen, State.setGen_gen]

/-- Settles O19: `stateAfter_next_iterate`, with the words of `candidate`, `after` and `orbit` written out. -/
theorem nthNextOutputsThePreStepState : Obligations.NthNextOutputsThePreStepState :=
  fun _ _ n hg => stateAfter_next_iterate hg n

/-! Corner cases (R68) -/

theorem stateAfter_next_gen {s : State} {g : GeneratorState} (hg : s.gen = some g) :
    (stateAfter .next s).gen = some ⟨lcgStep s.config.mult g.state g.inc, g.inc⟩ := by
  rw [stateAfter_next hg]
  rfl

theorem stateAfter_next_response {s : State} {g : GeneratorState} (hg : s.gen = some g) :
    (stateAfter .next s).response = some ⟨.ok, xshRr g.state⟩ := by
  rw [stateAfter_next hg]
  rfl

theorem stateAfter_next_config {s : State} {g : GeneratorState} (hg : s.gen = some g) :
    (stateAfter .next s).config = s.config := by
  rw [stateAfter_next hg, respond_config, State.setGen_config]

/-- Rotation 0: the output is `xorshifted` as it is. -/
theorem xshRr_of_lt {x : U64} (hx : x.toNat < 2 ^ 59) : xshRr x = xorshifted x := by
  have hrot : rotation x = 0 := BitVec.eq_of_toNat_eq ((rotation_toNat x).trans (Nat.div_eq_of_lt hx))
  rw [xshRr_eq, hrot, rotr32_zero]

/-- From state 0 with `inc = 1` two NEXTs leave the states 1 and `MULT + 1`, and the second one too answers 0. -/
theorem next_twice_from_zero {s : State} (hg : s.gen = some ⟨0, 1⟩) :
    (stateAfter .next s).gen = some ⟨1, 1⟩ ∧ (stateAfter .next (stateAfter .next s)).response = some ⟨.ok, 0⟩ ∧
      (stateAfter .next (stateAfter .next s)).gen = some ⟨s.config.mult + 1, 1⟩ := by
  have hone : (stateAfter .next s).gen = some ⟨1, 1⟩ := by rw [stateAfter_next_gen hg, lcgStep_zero]
  have hout : xshRr 1 = 0 := by decide
  refine ⟨hone, ?_, ?_⟩
  · rw [stateAfter_next_response hone, hout]
  · rw [stateAfter_next_gen hone, stateAfter_next_config hg, lcgStep, one_mul]

/-- State 2^64 - 1 is -1 in the ring of words. -/
theorem lcgStep_allOnes (mult c : U64) : lcgStep mult (BitVec.allOnes 64) c = c - mult := by
  have hneg : BitVec.allOnes 64 = -1 := by decide
  rw [lcgStep, hneg, neg_one_mul, neg_add_eq_sub]

/-- Settles O20: each corner is a value of `xshRr` or of `lcgStep`, read off `stateAfter_next_response` and
`stateAfter_next_gen`. -/
theorem nextCornerCases : Obligations.NextCornerCases := by
  intro s g hg
  obtain ⟨-, hlow, -⟩ := outputIsUniform
  have hgen := stateAfter_next_gen hg
  have hresponse := stateAfter_next_response hg
  have hones : xshRr (BitVec.allOnes 64) = 0xFFF00001 := by decide
  refine ⟨fun hx => ?_, fun hx => ?_, fun hstate hinc => ?_, fun hstate => ⟨?_, ?_⟩, ⟨_, hgen⟩, ?_⟩
  · rw [hresponse, xshRr_of_lt hx, xorshifted]
  · rw [hresponse, hlow _ hx]
  · obtain ⟨x, c⟩ := g
    subst hstate hinc
    exact next_twice_from_zero hg
  · rw [hresponse, hstate, hones]
  · rw [hgen, hstate, lcgStep_allOnes]
  · rw [State.seeded, hgen, Option.isSome_some]

/-! The period (R69) -/

theorem four_dvd_sub_one {mult : U64} (hfull : FullPeriod mult) : 4 ∣ mult - 1 := by
  refine ⟨mult >>> 2, ?_⟩
  have hmod : mult.toNat % 4 = 1 := congrArg BitVec.toNat hfull
  have hshift : (mult >>> 2).toNat = mult.toNat / 4 := by
    rw [BitVec.toNat_ushiftRight, Nat.shiftRight_eq_div_pow]
  bv_omega

theorem odd_of_fullPeriod {mult : U64} (hfull : FullPeriod mult) : mult.getLsbD 0 = true := by
  have hmod : mult.toNat % 4 = 1 := congrArg BitVec.toNat hfull
  have hodd : mult.toNat % 2 = 1 := by omega
  simpa [BitVec.getLsbD, Nat.testBit_zero] using hodd

/-- Under the premise of R5 the running map of the jump loop after `k` bits adds `2^k`, modulo `2^(k + 1)`: a factor
`1 + 2^(k + 2) * a` has the successor `2 * (1 + 2^(k + 1) * a)`, by which the squaring multiplies `curInc`. -/
theorem jumpAfter_cur_dvd_of_fullPeriod {mult c : U64} (hfull : FullPeriod mult) (hc : c.getLsbD 0 = true) (n : U64)
    (k : Nat) :
    2 ^ (k + 2) ∣ (jumpAfter mult c n k).curMult - 1 ∧ 2 ^ (k + 1) ∣ (jumpAfter mult c n k).curInc - 2 ^ k := by
  induction k with
  | zero => exact ⟨four_dvd_sub_one hfull, two_dvd_sub_one hc⟩
  | succ k ih =>
    obtain ⟨⟨a, ha⟩, b, hb⟩ := ih
    rw [sub_eq_iff_eq_add] at ha hb
    rw [jumpAfter_succ]
    constructor
    · refine ⟨a * (1 + 2 ^ (k + 1) * a), ?_⟩
      simp only [jumpBit, ha]
      ring
    · refine ⟨2 ^ k * a + b * (1 + 2 ^ (k + 1) * a), ?_⟩
      simp only [jumpBit, ha, hb]
      ring

theorem two_pow_sixty_three : (2 : U64) ^ 63 = 0x8000000000000000 := by
  calc (2 : U64) ^ 63 = ((2 ^ 63 : Nat) : U64) := (Nat.cast_pow 2 63).symm
    _ = 0x8000000000000000 := rfl

/-- Under the premise of R5, 2^63 steps flip the top bit. -/
theorem iterate_half_period {mult c : U64} (hfull : FullPeriod mult) (hc : c.getLsbD 0 = true) (x : U64) :
    (fun y : U64 => mult * y + c)^[2 ^ 63] x = x + 0x8000000000000000 := by
  obtain ⟨hmult, hinc⟩ := jumpAfter_cur_dvd_of_fullPeriod hfull hc 0 63
  rw [pow_succ, two_pow_width, zero_mul, zero_dvd_iff] at hmult
  rw [two_pow_width, zero_dvd_iff] at hinc
  rw [← jumpAfter_cur mult c 0, Jump.cur, sub_eq_zero.mp hmult, sub_eq_zero.mp hinc, one_mul, two_pow_sixty_three]

/-- The least period of every state divides 2^64 and not 2^63. -/
theorem minimalPeriod_lcgStep {mult c : U64} (hfull : FullPeriod mult) (hc : c.getLsbD 0 = true) (x : U64) :
    Function.minimalPeriod (fun y => lcgStep mult y c) x = 2 ^ 64 := by
  simp only [lcgStep_eq]
  refine Function.minimalPeriod_eq_prime_pow (k := 63) (fun hhalf => ?_)
    (iterate_two_pow_width (odd_of_fullPeriod hfull) c x)
  have hflip : x + 0x8000000000000000 = x := (iterate_half_period hfull hc x).symm.trans hhalf
  exact absurd (add_eq_left.mp hflip) (by decide)

theorem after_eq_self_iff (mult : U64) (g : GeneratorState) (n : Nat) :
    g.after mult n = g ↔ Function.IsPeriodicPt (fun x => lcgStep mult x g.inc) n g.state :=
  ⟨congrArg GeneratorState.state, congrArg fun x => ({ g with state := x } : GeneratorState)⟩

/-- Settles O21: `n` NEXTs are `n` LCG steps, whose least period is 2^64. -/
theorem nextHasTheFullPeriod : Obligations.NextHasTheFullPeriod := by
  intro s g n hg hfull hc
  rw [stateAfter_next_iterate_gen hg, hg, Option.some.injEq, after_eq_self_iff,
    Function.isPeriodicPt_iff_minimalPeriod_dvd, minimalPeriod_lcgStep hfull hc]

end Sys2Proof.Machine
end

section
/-! The ADVANCE family (43_advance.md): one jump is `delta` LCG steps, and under an odd `MULT` distances add modulo 2^64. -/

namespace Sys2Proof.Machine

/-! A jump is a walk along the orbit (R72) -/

theorem advance_ne_seed (d a b : U64) : Instr.advance d ≠ .seed a b :=
  Instr.noConfusion

theorem jump_eq_after (mult d : U64) (g : GeneratorState) : jump mult d g = g.after mult d.toNat := by
  have hstate : (jump mult d g).state = orbit mult g d.toNat := by
    rw [jump_state, affinePow_apply, orbit]
    simp only [lcgStep_eq]
  rw [GeneratorState.after, ← hstate]
  rfl

theorem stateAfter_advance (d : U64) {s : State} {g : GeneratorState} (hg : s.gen = some g) :
    stateAfter (.advance d) s = respond .ok 0 (s.setGen (g.after s.config.mult d.toNat)) := by
  rw [stateAfter_eq (exec_advance_seeded d hg), jump_eq_after]

theorem stateAfter_advance_gen (d : U64) {s : State} {g : GeneratorState} (hg : s.gen = some g) :
    (stateAfter (.advance d) s).gen = some (g.after s.config.mult d.toNat) := by
  rw [stateAfter_advance d hg, respond_gen, State.setGen_gen]

/-- No command writes `MULT` (R12). -/
theorem stateAfter_config (i : Instr) (s : State) : (stateAfter i s).config = s.config := by
  obtain ⟨gen', phase', -, hexec⟩ := exec_effect i s.config.mult s.gen
  rw [stateAfter_eq (hexec s rfl rfl)]

theorem stateAfter_iterate_config (i : Instr) (n : Nat) (s : State) : ((stateAfter i)^[n] s).config = s.config := by
  induction n with
  | zero => rfl
  | succ n ih => rw [Function.iterate_succ_apply', stateAfter_config, ih]

/-- Settles O22: the words of `respond`, `setGen` and `jump` written out in `exec_advance_seeded`, those of `raiseUnseeded` in
`exec_unseeded`. -/
theorem advanceAppliesAffinePow : Obligations.AdvanceAppliesAffinePow := by
  intro d s
  constructor
  · intro g hg
    exact exec_advance_seeded d hg
  · intro hnone
    exact exec_unseeded (advance_ne_seed d) hnone

/-- Settles O23: the jump and the NEXTs walk the same orbit, and a NEXT after either draws from its state `delta` steps on. -/
theorem advanceEqualsStepping : Obligations.AdvanceEqualsStepping := by
  intro d s g hg
  have hgen := stateAfter_advance_gen d hg
  refine ⟨?_, ?_, ?_⟩
  · rw [exec_advance_seeded d hg, jump_eq_after]
    rfl
  · rw [hgen, stateAfter_next_iterate_gen hg]
  · rw [stateAfter_next hgen, stateAfter_config, after_after, candidate_after, Nat.add_zero, stateAfter_next_iterate hg,
      stateAfter_advance d hg]
    rfl

/-- Settles O24: `affine_pow` by 0 is the identity map, so the jump leaves the GeneratorState. -/
theorem advanceByZeroIsTheIdentity : Obligations.AdvanceByZeroIsTheIdentity := by
  intro s
  refine ⟨fun hseeded => ?_, exec_unseeded (advance_ne_seed 0), affinePow_zero s.config.mult⟩
  obtain ⟨g, hg⟩ := Option.isSome_iff_exists.mp hseeded
  have hjump : jump s.config.mult 0 g = g := jump_eq_after ..
  rw [exec_advance_seeded 0 hg, hjump, respond, State.setGen, ← hg]

/-! Distances add modulo 2^64 (R74 to R76) -/

theorem isPeriodicPt_two_pow_width {mult : U64} (hodd : mult.getLsbD 0 = true) (c x : U64) :
    Function.IsPeriodicPt (fun y => lcgStep mult y c) (2 ^ 64) x := by
  simp only [lcgStep_eq]
  exact iterate_two_pow_width hodd c x

/-- A walk of 2^64 steps ends where it began, so only the distance modulo 2^64 counts. -/
theorem after_mod_two_pow_width {mult : U64} (hodd : mult.getLsbD 0 = true) (g : GeneratorState) (n : Nat) :
    g.after mult (n % 2 ^ 64) = g.after mult n := by
  rw [GeneratorState.after, orbit, (isPeriodicPt_two_pow_width hodd g.inc g.state).iterate_mod_apply n]
  rfl

/-- Two walks of word distances make one by the sum of the words, when the sum does not wrap or `MULT` is odd. -/
theorem after_toNat_add {mult d1 d2 : U64} (h : d1.toNat + d2.toNat < 2 ^ 64 ∨ mult.getLsbD 0 = true)
    (g : GeneratorState) : (g.after mult d1.toNat).after mult d2.toNat = g.after mult (d1 + d2).toNat := by
  rw [after_after, BitVec.toNat_add]
  obtain hlt | hodd := h
  · rw [Nat.mod_eq_of_lt hlt]
  · rw [after_mod_two_pow_width hodd]

theorem after_toNat_neg {mult : U64} (hodd : mult.getLsbD 0 = true) (k : U64) (g : GeneratorState) :
    (g.after mult k.toNat).after mult (-k).toNat = g := by
  rw [after_toNat_add (.inr hodd), add_neg_cancel]
  rfl

/-- Two ADVANCEs walk the two distances one after the other. -/
theorem stateAfter_advance_advance_gen (d1 d2 : U64) {s : State} {g : GeneratorState} (hg : s.gen = some g) :
    (stateAfter (.advance d2) (stateAfter (.advance d1) s)).gen =
      some ((g.after s.config.mult d1.toNat).after s.config.mult d2.toNat) := by
  rw [stateAfter_advance_gen d2 (stateAfter_advance_gen d1 hg), stateAfter_config]

/-- Settles O27, by `after_toNat_add`. -/
theorem advancesCompose : Obligations.AdvancesCompose := by
  intro s d1 d2 hseeded
  obtain ⟨g, hg⟩ := Option.isSome_iff_exists.mp hseeded
  constructor
  · rw [stateAfter_advance_gen 1 hg, stateAfter_next_gen hg]
    rfl
  · intro h
    rw [stateAfter_advance_advance_gen d1 d2 hg, stateAfter_advance_gen _ hg, after_toNat_add h]

/-- SEED leaves the state one LCG step after `inc + initial_state` (R61). -/
theorem seedGenerator_eq_after (mult a b : U64) :
    seedGenerator mult a b = (⟨2 * b + 1 + a, 2 * b + 1⟩ : GeneratorState).after mult (1 : U64).toNat :=
  seedGenerator_eq mult a b

/-- Settles O25: in both parts the jump back is as long as the walk before it, `k` NEXTs or SEED's last step. -/
theorem advanceJumpsBack : Obligations.AdvanceJumpsBack := by
  intro s hodd
  constructor
  · intro k hseeded
    obtain ⟨g, hg⟩ := Option.isSome_iff_exists.mp hseeded
    rw [stateAfter_advance_gen (-k) (stateAfter_next_iterate_gen hg k.toNat), stateAfter_iterate_config,
      after_toNat_neg hodd, hg]
  · intro a b
    rw [stateAfter_advance_gen (-1) (stateAfter_seed_gen a b s), stateAfter_config, seedGenerator_eq_after,
      after_toNat_neg hodd]

/-! The jump by half the period (R75) -/

/-- The coefficients of the map that `n` steps make are read off its values at 0 and at 1. -/
theorem affinePow_eq_of_iterate {m c n a b : U64} (h : ∀ x : U64, (fun y : U64 => m * y + c)^[n.toNat] x = a * x + b) :
    affinePow m c n = (a, b) := by
  have happly (x : U64) := (affinePow_apply m c n x).trans (h x)
  have hsnd : (affinePow m c n).2 = b := by simpa using happly 0
  have hfst : (affinePow m c n).1 = a := by simpa [hsnd] using happly 1
  exact Prod.ext hfst hsnd

theorem affinePow_half_period {mult c : U64} (hfull : FullPeriod mult) (hc : c.getLsbD 0 = true) :
    affinePow mult c 0x8000000000000000 = (1, 0x8000000000000000) :=
  affinePow_eq_of_iterate fun x => (iterate_half_period hfull hc x).trans (by rw [one_mul])

/-- Adding the top bit flips it: below it nothing is added, so no carry arises. -/
theorem add_top_bit (x : U64) : x + 0x8000000000000000 = x ^^^ 0x8000000000000000 := by
  apply BitVec.eq_of_getLsbD_eq
  intro i hi
  have hlow : (0x8000000000000000 : U64).toNat % 2 ^ i = 0 :=
    Nat.mod_eq_zero_of_dvd (pow_dvd_pow 2 (Nat.le_of_lt_succ hi))
  have hcarry : BitVec.carry i x 0x8000000000000000 false = false := by
    simp only [BitVec.carry, hlow, Bool.toNat_false, Nat.add_zero, decide_eq_false_iff_not, not_le]
    exact Nat.mod_lt _ (Nat.two_pow_pos i)
  rw [BitVec.getLsbD_add hi, hcarry, Bool.xor_false, BitVec.getLsbD_xor]

/-- Settles O26: `-d` undoes `d`, and 2^63 is its own negative; half a period is the map `x + 2^63`. -/
theorem advanceIsInvertible : Obligations.AdvanceIsInvertible := by
  intro s g hg
  constructor
  · intro hodd
    have hback (d : U64) : (stateAfter (.advance (-d)) (stateAfter (.advance d) s)).gen = s.gen := by
      rw [stateAfter_advance_advance_gen d (-d) hg, after_toNat_neg hodd, hg]
    exact ⟨hback, hback 0x8000000000000000⟩
  · intro hfull hc
    have hhalf := affinePow_half_period hfull hc
    have hflip : (jump s.config.mult 0x8000000000000000 g).state = g.state ^^^ 0x8000000000000000 := by
      rw [jump_state, hhalf, one_mul, add_top_bit]
    refine ⟨hhalf, ?_⟩
    rw [stateAfter_eq (exec_advance_seeded _ hg), respond_gen, State.setGen_gen, ← hflip]
    rfl

end Sys2Proof.Machine
end

section
/-! The BOUNDED family (44_bounded_next.md): the threshold, the first accepted candidate, the loop that never ends, the counts of
candidates and states, the number of draws and the corner cases. -/

namespace Sys2Proof.Machine

/-! The threshold (R80) -/

theorem bound_pos {bound : U32} (hb : bound ≠ 0) : 0 < bound.toNat :=
  Nat.pos_of_ne_zero fun h => hb (BitVec.eq_of_toNat_eq h)

/-- The source's form of the threshold, `neg_32(bound) mod bound`, as numbers. -/
theorem threshold_toNat_neg (bound : U32) :
    (threshold bound).toNat = (2 ^ 32 - bound.toNat) % 2 ^ 32 % bound.toNat := by
  rw [threshold, BitVec.toNat_umod, BitVec.toNat_neg]

/-- For a non-zero bound `2^32 - bound` does not wrap. -/
theorem threshold_toNat_sub {bound : U32} (hb : bound ≠ 0) :
    (threshold bound).toNat = (2 ^ 32 - bound.toNat) % bound.toNat := by
  have hpos := bound_pos hb
  rw [threshold_toNat_neg, Nat.mod_eq_of_lt (a := 2 ^ 32 - bound.toNat) (by omega)]

theorem threshold_toNat {bound : U32} (hb : bound ≠ 0) : (threshold bound).toNat = 2 ^ 32 % bound.toNat := by
  rw [threshold_toNat_sub hb, Nat.mod_eq_sub_mod bound.isLt.le]

theorem threshold_toNat_lt {bound : U32} (hb : bound ≠ 0) : (threshold bound).toNat < bound.toNat := by
  rw [threshold_toNat hb]
  exact Nat.mod_lt _ (bound_pos hb)

theorem threshold_toNat_le_sub {bound : U32} (hb : bound ≠ 0) : (threshold bound).toNat ≤ 2 ^ 32 - bound.toNat := by
  rw [threshold_toNat_sub hb]
  exact Nat.mod_le ..

/-- A remainder below `bound` and at most `2^32 - bound` is below 2^31. -/
theorem threshold_toNat_le {bound : U32} (hb : bound ≠ 0) : (threshold bound).toNat ≤ 2 ^ 31 - 1 := by
  have hlt := threshold_toNat_lt hb
  have hsub := threshold_toNat_le_sub hb
  omega

theorem threshold_toNat_of_gt {bound : U32} (hb : bound ≠ 0) (hbig : 2 ^ 31 < bound.toNat) :
    (threshold bound).toNat = 2 ^ 32 - bound.toNat := by
  rw [threshold_toNat_sub hb, Nat.mod_eq_of_lt (by omega)]

/-- The two bounds on the threshold leave 2^31 and 2^31 + 1, and 2^31 divides 2^32. -/
theorem threshold_toNat_eq_max_iff {bound : U32} (hb : bound ≠ 0) :
    (threshold bound).toNat = 2 ^ 31 - 1 ↔ bound.toNat = 2 ^ 31 + 1 := by
  constructor
  · intro h
    have hlt := threshold_toNat_lt hb
    have hsub := threshold_toNat_le_sub hb
    have hne : bound.toNat ≠ 2 ^ 31 := by
      intro hpow
      rw [threshold_toNat hb, hpow] at h
      exact absurd h (by decide)
    omega
  · intro h
    have hsub := threshold_toNat_of_gt hb (by omega)
    omega

/-- The divisors of 2^32 are the powers of two, and 2^32 itself is no bound. -/
theorem threshold_eq_zero_iff {bound : U32} (hb : bound ≠ 0) :
    threshold bound = 0 ↔ ∃ k, k < 32 ∧ bound.toNat = 2 ^ k := by
  have hdvd : threshold bound = 0 ↔ bound.toNat ∣ 2 ^ 32 := by
    rw [← BitVec.toNat_inj, threshold_toNat hb]
    exact (Nat.dvd_iff_mod_eq_zero ..).symm
  rw [hdvd, Nat.dvd_prime_pow Nat.prime_two]
  constructor
  · rintro ⟨k, -, hk⟩
    have hlt : 2 ^ k < 2 ^ 32 := hk ▸ bound.isLt
    exact ⟨k, (Nat.pow_lt_pow_iff_right (by decide)).mp hlt, hk⟩
  · rintro ⟨k, hk, hpow⟩
    exact ⟨k, hk.le, hpow⟩

/-- Settles O29: the facts above, one by one. -/
theorem thresholdFacts : Obligations.ThresholdFacts := fun bound hb =>
  ⟨threshold_toNat_neg bound, threshold_toNat hb, threshold_toNat_lt hb, threshold_toNat_le_sub hb, threshold_toNat_le hb,
    threshold_toNat_eq_max_iff hb, threshold_eq_zero_iff hb, threshold_toNat_of_gt hb⟩

/-! The first accepted candidate (R79, R81 to R83) -/

theorem acceptCandidate_zero (c : U32) : acceptCandidate 0 c = some c :=
  if_pos rfl

theorem acceptCandidate_eq_some_iff {bound : U32} (hb : bound ≠ 0) (c v : U32) :
    acceptCandidate bound c = some v ↔ threshold bound ≤ c ∧ c % bound = v := by
  rw [acceptCandidate, if_neg hb]
  split
  · next h => simp [h]
  · next h => simp [h]

theorem acceptCandidate_of_le {bound c : U32} (hb : bound ≠ 0) (h : threshold bound ≤ c) :
    acceptCandidate bound c = some (c % bound) :=
  (acceptCandidate_eq_some_iff hb ..).mpr ⟨h, rfl⟩

theorem acceptCandidate_lt_bound {bound c v : U32} (hb : bound ≠ 0) (h : acceptCandidate bound c = some v) : v < bound := by
  obtain ⟨-, rfl⟩ := (acceptCandidate_eq_some_iff hb ..).mp h
  exact BitVec.umod_lt c (bound_pos hb)

/-- A loop with an accepted candidate ends at the first one: as the limit cuts no such loop short, it answers, and the index it
answers from can be neither before nor after the first accepted one. -/
theorem drawUntil_limit_eq_some {bound : U32} {mult : U64} {g : GeneratorState} {k : Nat} {v : U32}
    (haccept : acceptCandidate bound (candidate mult g k) = some v)
    (hreject : ∀ j, j < k → acceptCandidate bound (candidate mult g j) = none) :
    drawUntil bound mult drawLimit g = some (v, g.after mult (k + 1)) := by
  cases hd : drawUntil bound mult drawLimit g with
  | none =>
    have hnone := (drawUntil_limit_eq_none_iff ..).mp hd k
    rw [haccept] at hnone
    cases hnone
  | some result =>
    obtain ⟨w, g'⟩ := result
    obtain ⟨i, -, hi, rfl, hbefore⟩ := (drawUntil_eq_some_iff ..).mp hd
    rcases Nat.lt_trichotomy i k with hlt | rfl | hgt
    · rw [hreject i hlt] at hi
      cases hi
    · rw [haccept] at hi
      cases hi
      rfl
    · rw [hbefore k hgt] at haccept
      cases haccept

/-- The command answers what the first accepted candidate gives, one LCG step past it. -/
theorem exec_bounded_accepts {bound : U32} {s : State} {g : GeneratorState} {k : Nat} {v : U32} (hg : s.gen = some g)
    (haccept : acceptCandidate bound (candidate s.config.mult g k) = some v)
    (hreject : ∀ j, j < k → acceptCandidate bound (candidate s.config.mult g j) = none) :
    exec (.bounded bound) s = .next (respond .ok v (s.setGen (g.after s.config.mult (k + 1)))) := by
  rw [exec_bounded_seeded bound hg, drawUntil_limit_eq_some haccept hreject]

theorem exec_bounded_accepts_at_once {bound : U32} {s : State} {g : GeneratorState} {v : U32} (hg : s.gen = some g)
    (haccept : acceptCandidate bound (candidate s.config.mult g 0) = some v) :
    exec (.bounded bound) s = .next (respond .ok v (s.setGen (g.after s.config.mult 1))) :=
  exec_bounded_accepts hg haccept fun j hj => absurd hj j.not_lt_zero

theorem bounded_ne_seed (bound : U32) (a b : U64) : Instr.bounded bound ≠ .seed a b :=
  Instr.noConfusion

theorem exec_bounded_zero (s : State) : exec (.bounded 0) s = exec .next s := by
  cases hg : s.gen with
  | none => rw [exec_unseeded (bounded_ne_seed 0) hg, exec_unseeded next_ne_seed hg]
  | some g =>
    rw [exec_next_seeded hg, exec_bounded_accepts_at_once hg (acceptCandidate_zero _)]

/-- Settles O28: bound 0 accepts the first candidate raw, and on an unseeded block both commands fault. -/
theorem boundedByZeroIsNext : Obligations.BoundedByZeroIsNext := fun s =>
  ⟨exec_bounded_zero s, fun _ hg => (exec_bounded_zero s).trans (exec_next_seeded hg)⟩

theorem exec_bounded_firstAccepted {bound : U32} {s : State} {g : GeneratorState} {k : Nat} (hb : bound ≠ 0)
    (hg : s.gen = some g) (hfirst : FirstAccepted bound s.config.mult g k) :
    exec (.bounded bound) s =
      .next (respond .ok (candidate s.config.mult g k % bound) (s.setGen (g.after s.config.mult (k + 1)))) := by
  obtain ⟨haccept, hreject⟩ := hfirst
  exact exec_bounded_accepts hg (acceptCandidate_of_le hb haccept)
    fun j hj => (acceptCandidate_eq_none_iff ..).mpr ⟨hb, hreject j hj⟩

/-- Settles O30: `exec_bounded_firstAccepted` with the words of `respond`, `setGen` and `after` written out. -/
theorem boundedAnswersTheFirstAccepted : Obligations.BoundedAnswersTheFirstAccepted :=
  fun _ _ _ _ hb hg hfirst => exec_bounded_firstAccepted hb hg hfirst

/-- A BOUNDED that answers without a fault answers what one of its candidates gives. -/
theorem exists_candidate_of_exec_bounded {bound : U32} {s t : State} {v : U32} (h : exec (.bounded bound) s = .next t)
    (hresponse : t.response = some ⟨.ok, v⟩) : ∃ c, acceptCandidate bound c = some v := by
  cases hg : s.gen with
  | none =>
    rw [exec_unseeded (bounded_ne_seed bound) hg] at h
    cases h
    cases hresponse
  | some g =>
    rw [exec_bounded_seeded bound hg] at h
    cases hd : drawUntil bound s.config.mult drawLimit g with
    | none =>
      rw [hd] at h
      cases h
      cases hresponse
    | some result =>
      obtain ⟨k, -, haccept, -, -⟩ := (drawUntil_eq_some_iff ..).mp hd
      rw [hd] at h
      cases h
      cases hresponse
      exact ⟨_, haccept⟩

/-- Settles O32: the value answered is a remainder of division by the bound. -/
theorem boundedResultIsBelowTheBound : Obligations.BoundedResultIsBelowTheBound := by
  intro bound s t v hb h hresponse
  obtain ⟨c, haccept⟩ := exists_candidate_of_exec_bounded h hresponse
  exact acceptCandidate_lt_bound hb haccept

/-- Settles O33: both sides are `k + 1` LCG steps on. -/
theorem boundedAdvancesOneStepPerDraw : Obligations.BoundedAdvancesOneStepPerDraw := by
  intro bound s g k hg
  constructor
  · intro hb hfirst
    rw [stateAfter_eq (exec_bounded_firstAccepted hb hg hfirst), stateAfter_next_iterate_gen hg, respond_gen,
      State.setGen_gen]
  · rw [stateAfter, exec_bounded_zero, ← stateAfter]

/-! The loop that never ends (R84, R87) -/

theorem loopDraw_rejects {bound : U32} {s : State} {g : GeneratorState} (hg : s.gen = some g)
    (hreject : acceptCandidate bound (candidate s.config.mult g 0) = none) :
    loopDraw bound s = s.setGen (g.after s.config.mult 1) := by
  simp only [loopDraw, hg, draw_eq, hreject]

/-- Reset at an instant overrides everything else in it (R107). -/
theorem step_resets {s : State} (hr : s.pins.rst = true) : step s = .next (applyReset s.popInput) := by
  simp [step, instant, hr]

/-- A block in the loop of a BOUNDED draws once more (R84). -/
theorem step_drawing_draws {s : State} {bound : U32} (hr : s.pins.rst = false) (hp : s.phase = .drawing bound) :
    step s = .next (loopDraw bound s.popInput) := by
  simp [step, instant, hr, hp]

/-- One instant of a sound loop without reset: the candidate is rejected and `state` moves one LCG step. -/
theorem step_loop {s : State} {bound : U32} (hs : s.LoopSound) (hp : s.phase = .drawing bound) (hr : s.pins.rst = false) :
    ∃ g, s.gen = some g ∧ candidate s.config.mult g 0 < threshold bound ∧
      step s = .next (s.popInput.setGen (g.after s.config.mult 1)) := by
  obtain ⟨hb, g, hg, hlt⟩ := hs bound hp
  have hreject : acceptCandidate bound (candidate s.config.mult g 0) = none :=
    (acceptCandidate_eq_none_iff ..).mpr ⟨hb, hlt 0⟩
  have hdraw : loopDraw bound s.popInput = s.popInput.setGen (g.after s.config.mult 1) := loopDraw_rejects hg hreject
  exact ⟨g, hg, hlt 0, by rw [step_drawing_draws hr hp, hdraw]⟩

theorem rspValid_of_drawing {s : State} {bound : U32} (hp : s.phase = .drawing bound) : s.rspValid = false := by
  simp [State.rspValid, State.response, hp]

theorem cmdReady_of_drawing {s : State} {bound : U32} (hp : s.phase = .drawing bound) : s.cmdReady = false := by
  simp [State.cmdReady, hp]

/-- Settles O34: the two values of `rst`. -/
theorem loopIsLeftOnlyByReset : Obligations.LoopIsLeftOnlyByReset := by
  rintro s t bound ⟨-, hs⟩ hp h
  cases hr : s.pins.rst with
  | true =>
    rw [step_resets hr] at h
    cases h
    exact .inl ⟨rfl, rfl, rfl, rfl⟩
  | false =>
    obtain ⟨g, hg, hlt, hstep⟩ := step_loop hs hp hr
    rw [hstep] at h
    cases h
    exact .inr ⟨rfl, hp, rspValid_of_drawing hp, cmdReady_of_drawing hp, rfl, g, hg, hlt, rfl⟩

/-- Without reset a sound loop goes on for any number of instants. -/
theorem instants_loop (n : Nat) {s : State} {bound : U32} (hs : s.LoopSound) (hp : s.phase = .drawing bound)
    (hin : ∀ p, p ∈ s.inputs → p.rst = false) :
    ∃ t, instants n s = .next t ∧ t.phase = .drawing bound ∧ t.delivered = s.delivered := by
  induction n generalizing s with
  | zero => exact ⟨s, rfl, hp, rfl⟩
  | succ n ih =>
    have hr : s.pins.rst = false := by
      cases hinputs : s.inputs with
      | nil => simp [State.pins, hinputs, Pins.quiet]
      | cons p rest => simp [State.pins, hinputs, hin p (by simp [hinputs])]
    obtain ⟨g, -, -, hstep⟩ := step_loop hs hp hr
    rw [instants_succ n hstep]
    exact ih (step_keeps_loopSound hs hstep) hp fun p hmem => hin p (List.mem_of_mem_tail hmem)

/-- Settles O31: the loop's limit finds no candidate, and the phase it leaves is a sound loop. -/
theorem boundedWithoutCandidateNeverResponds : Obligations.BoundedWithoutCandidateNeverResponds := by
  intro bound s g hb hg hlt
  constructor
  · have hnone : drawUntil bound s.config.mult drawLimit g = none :=
      (drawUntil_limit_eq_none_iff ..).mpr fun j => (acceptCandidate_eq_none_iff ..).mpr ⟨hb, hlt j⟩
    rw [exec_bounded_seeded bound hg, hnone]
  · intro n hin
    have hsound : ({ s with phase := .drawing bound } : State).LoopSound := by
      rintro _ ⟨⟩
      exact ⟨hb, g, hg, hlt⟩
    obtain ⟨t, hrun, hp, hdelivered⟩ := instants_loop n hsound rfl hin
    exact ⟨t, hrun, rspValid_of_drawing hp, cmdReady_of_drawing hp, hdelivered⟩

/-! Counting candidates and states (R85) -/

/-- Words of 32 bits are counted as the numbers they are. -/
theorem card_words {S : Finset Nat} (hS : ∀ n ∈ S, n < 2 ^ 32) : Nat.card { c : U32 // c.toNat ∈ S } = S.card := by
  have hbij : Function.Bijective fun c : { c : U32 // c.toNat ∈ S } => (⟨c.1.toNat, c.2⟩ : S) := by
    constructor
    · intro c d h
      exact Subtype.ext (BitVec.eq_of_toNat_eq (congrArg Subtype.val h))
    · rintro ⟨n, hn⟩
      have hword : (BitVec.ofNat 32 n).toNat = n := toNat_ofNat_of_lt (hS n hn)
      exact ⟨⟨BitVec.ofNat 32 n, hword.symm ▸ hn⟩, Subtype.ext hword⟩
  rw [Nat.card_eq_of_bijective _ hbij, Nat.card_eq_fintype_card, Fintype.card_coe]

/-- `2^32 - threshold` is the greatest multiple of the bound up to 2^32. -/
theorem two_pow_sub_threshold {bound : U32} (hb : bound ≠ 0) :
    2 ^ 32 - (threshold bound).toNat = bound.toNat * (2 ^ 32 / bound.toNat) := by
  have hdiv := Nat.div_add_mod (2 ^ 32) bound.toNat
  rw [threshold_toNat hb]
  omega

/-- An interval of `b * q` numbers has `q` numbers of every remainder modulo `b`. -/
theorem card_Ico_filter_mod_eq {b r : Nat} (hr : r < b) (a q : Nat) :
    ((Finset.Ico a (a + b * q)).filter fun n => n % b = r).card = q := by
  have hperiodic : Function.Periodic (fun n => n % b = r) (b * q) := by
    intro n
    simp only [Nat.add_mul_mod_self_left]
  have hmod : (fun n => n % b = r) = (· ≡ r [MOD b]) := by
    funext n
    rw [Nat.ModEq, Nat.mod_eq_of_lt hr]
  rw [Nat.filter_Ico_card_eq_of_periodic _ _ _ hperiodic]
  simp only [hmod]
  have hpos : 0 < b := Nat.zero_lt_of_lt hr
  rw [Nat.count_modEq_card _ hpos, Nat.mul_mod_right, if_neg (Nat.not_lt_zero _), Nat.add_zero, Nat.mul_div_cancel_left q hpos]

/-- The accepted candidates are an interval of `bound * floor(2^32 / bound)` numbers. -/
theorem card_candidates {bound r : U32} (hb : bound ≠ 0) (hr : r < bound) :
    Nat.card { c : U32 // acceptCandidate bound c = some r } = 2 ^ 32 / bound.toNat := by
  have hend : 2 ^ 32 = (threshold bound).toNat + bound.toNat * (2 ^ 32 / bound.toNat) := by
    have hle := threshold_toNat_le hb
    rw [← two_pow_sub_threshold hb]
    omega
  have hmem (c : U32) : acceptCandidate bound c = some r ↔
      c.toNat ∈ (Finset.Ico (threshold bound).toNat (2 ^ 32)).filter fun n => n % bound.toNat = r.toNat := by
    rw [acceptCandidate_eq_some_iff hb, Finset.mem_filter, Finset.mem_Ico, ← BitVec.toNat_inj, BitVec.toNat_umod,
      and_iff_left c.isLt, BitVec.le_def]
  have hrange (n : Nat)
      (hn : n ∈ (Finset.Ico (threshold bound).toNat (2 ^ 32)).filter fun n => n % bound.toNat = r.toNat) : n < 2 ^ 32 :=
    (Finset.mem_Ico.mp (Finset.mem_of_mem_filter n hn)).2
  have hcount := card_Ico_filter_mod_eq hr (threshold bound).toNat (2 ^ 32 / bound.toNat)
  rw [← hend] at hcount
  rw [Nat.card_congr (Equiv.subtypeEquivRight hmem), card_words hrange, hcount]

/-- Every property of the output holds of 2^32 times as many states as words (R55). -/
theorem card_states (P : U32 → Prop) : Nat.card { x : U64 // P (xshRr x) } = Nat.card { c : U32 // P c } * 2 ^ 32 := by
  have hsplit : { x : U64 // P (xshRr x) } ≃ { c : U32 // P c } × (BitVec 5 × BitVec 27) :=
    ((Equiv.ofBijective _ xshRr_outputRest_bijective).subtypeEquiv fun _ => Iff.rfl).trans
      Equiv.prodSubtypeFstEquivSubtypeProd
  rw [Nat.card_congr hsplit, Nat.card_prod, Nat.card_prod, card_bitVec, card_bitVec, ← pow_add]

/-- Settles O35, by the three counts above. -/
theorem boundedIsUnbiased : Obligations.BoundedIsUnbiased := by
  intro bound r hb hr
  have hcard := card_candidates hb hr
  exact ⟨two_pow_sub_threshold hb, hcard, by rw [card_states fun c => acceptCandidate bound c = some r, hcard]⟩

/-! The number of draws (R87) -/

theorem card_words_lt (c : U32) : Nat.card { d : U32 // d < c } = c.toNat := by
  have hmem (d : U32) : d < c ↔ d.toNat ∈ Finset.range c.toNat := by
    rw [Finset.mem_range, BitVec.lt_def]
  rw [Nat.card_congr (Equiv.subtypeEquivRight hmem),
    card_words fun n hn => (Finset.mem_range.mp hn).trans c.isLt, Finset.card_range]

/-- Under the premise of R5 the first 2^64 states of an orbit are distinct. -/
theorem orbit_injOn {mult : U64} {g : GeneratorState} (hfull : FullPeriod mult) (hc : g.inc.getLsbD 0 = true) :
    Set.InjOn (orbit mult g) (Set.Iio (2 ^ 64)) := by
  rw [← minimalPeriod_lcgStep hfull hc g.state]
  exact Function.iterate_injOn_Iio_minimalPeriod

/-- There are only `c * 2^32` states with an output below `c`, so they cannot take up more of an orbit's distinct states. -/
theorem exists_candidate_ge {mult : U64} {g : GeneratorState} (hfull : FullPeriod mult) (hc : g.inc.getLsbD 0 = true)
    (c : U32) : ∃ k, k ≤ c.toNat * 2 ^ 32 ∧ c ≤ candidate mult g k := by
  by_contra! hall
  have hbelow (j : Fin (c.toNat * 2 ^ 32 + 1)) : xshRr (orbit mult g j) < c :=
    BitVec.not_le.mp (hall j (Nat.lt_succ_iff.mp j.isLt))
  have hlimit : c.toNat * 2 ^ 32 + 1 ≤ 2 ^ 64 := by
    have hlt := c.isLt
    omega
  have hinj : Function.Injective fun j : Fin (c.toNat * 2 ^ 32 + 1) =>
      (⟨orbit mult g j, hbelow j⟩ : { x : U64 // xshRr x < c }) := by
    intro i j h
    exact Fin.ext (orbit_injOn hfull hc (i.isLt.trans_le hlimit) (j.isLt.trans_le hlimit) (congrArg Subtype.val h))
  have := finite_bitVec
  have hcard := Nat.card_le_card_of_injective _ hinj
  rw [Nat.card_fin, card_states (· < c), card_words_lt] at hcard
  omega

theorem exists_firstAccepted {mult : U64} {g : GeneratorState} (hfull : FullPeriod mult) (hc : g.inc.getLsbD 0 = true)
    (bound : U32) : ∃ k, k ≤ (threshold bound).toNat * 2 ^ 32 ∧ FirstAccepted bound mult g k := by
  obtain ⟨k, hk, haccept⟩ := exists_candidate_ge hfull hc (threshold bound)
  have hex : ∃ k, threshold bound ≤ candidate mult g k := ⟨k, haccept⟩
  exact ⟨Nat.find hex, (Nat.find_min' hex haccept).trans hk, Nat.find_spec hex,
    fun j hj => BitVec.not_le.mp (Nat.find_min hex hj)⟩

/-- Settles O36: the first accepted candidate of `exists_firstAccepted` is the one answered. -/
theorem boundedTerminates : Obligations.BoundedTerminates := by
  intro bound s g hb hg hfull hc
  obtain ⟨k, hk, hfirst⟩ := exists_firstAccepted hfull hc bound
  have hmax := threshold_toNat_le hb
  refine ⟨k, hfirst, by omega, by omega, ?_⟩
  rw [stateAfter_eq (exec_bounded_firstAccepted hb hg hfirst)]
  rfl

/-! Corner cases (R88) -/

theorem acceptCandidate_of_threshold_eq_zero {bound : U32} (hb : bound ≠ 0) (hzero : threshold bound = 0) (c : U32) :
    acceptCandidate bound c = some (c % bound) :=
  acceptCandidate_of_le hb (hzero ▸ BitVec.not_lt.mp BitVec.not_lt_zero)

/-- A threshold of 0 rejects nothing, so one draw is enough. -/
theorem exec_bounded_of_threshold_eq_zero {bound : U32} {s : State} {g : GeneratorState} (hb : bound ≠ 0)
    (hzero : threshold bound = 0) (hg : s.gen = some g) :
    exec (.bounded bound) s = .next (respond .ok (xshRr g.state % bound) (s.setGen (g.after s.config.mult 1))) :=
  exec_bounded_accepts_at_once hg (acceptCandidate_of_threshold_eq_zero hb hzero _)

theorem ofNat_two_pow_toNat {k : Nat} (hk : k < 32) : (BitVec.ofNat 32 (2 ^ k)).toNat = 2 ^ k :=
  toNat_ofNat_of_lt (Nat.pow_lt_pow_right (by decide) hk)

theorem ofNat_two_pow_ne_zero {k : Nat} (hk : k < 32) : BitVec.ofNat 32 (2 ^ k) ≠ 0 := by
  intro h
  have hpow := congrArg BitVec.toNat h
  rw [ofNat_two_pow_toNat hk] at hpow
  exact absurd hpow (Nat.two_pow_pos k).ne'

theorem threshold_two_pow {k : Nat} (hk : k < 32) : threshold (BitVec.ofNat 32 (2 ^ k)) = 0 :=
  (threshold_eq_zero_iff (ofNat_two_pow_ne_zero hk)).mpr ⟨k, hk, ofNat_two_pow_toNat hk⟩

theorem toNat_umod_two_pow (c : U32) {k : Nat} (hk : k < 32) : (c % BitVec.ofNat 32 (2 ^ k)).toNat = c.toNat % 2 ^ k := by
  rw [BitVec.toNat_umod, ofNat_two_pow_toNat hk]

/-- The remainder by a power of two is the low bits. -/
theorem umod_two_pow (c : U32) {k : Nat} (hk : k < 32) : c % BitVec.ofNat 32 (2 ^ k) = BitVec.ofNat 32 (c.toNat % 2 ^ k) := by
  rw [← toNat_umod_two_pow c hk, BitVec.ofNat_toNat, BitVec.setWidth_eq]

theorem exec_bounded_one {s : State} {g : GeneratorState} (hg : s.gen = some g) :
    exec (.bounded 1) s = .next (respond .ok 0 (s.setGen (g.after s.config.mult 1))) := by
  rw [exec_bounded_of_threshold_eq_zero (by decide) (by decide) hg]
  congr
  exact BitVec.umod_one

theorem exec_bounded_two_pow {s : State} {g : GeneratorState} {k : Nat} (hg : s.gen = some g) (hk : k < 32) :
    exec (.bounded (BitVec.ofNat 32 (2 ^ k))) s =
      .next (respond .ok (BitVec.ofNat 32 ((xshRr g.state).toNat % 2 ^ k)) (s.setGen (g.after s.config.mult 1))) := by
  rw [exec_bounded_of_threshold_eq_zero (ofNat_two_pow_ne_zero hk) (threshold_two_pow hk) hg, umod_two_pow _ hk]

/-- The example of R88: with bound 3 the candidates 0 and 0 from `state = 0`, `inc = 1` are rejected, the third is accepted. -/
theorem exec_bounded_three :
    exec (.bounded 3) { State.reset with gen := some ⟨0, 1⟩ } =
      .next (respond .ok 1 ({ State.reset with gen := some ⟨0, 1⟩ }.setGen ⟨0xC0B18CCF4E252D17, 1⟩)) := by
  have hfirst : FirstAccepted 3 defaultMult ⟨0, 1⟩ 2 := by
    unfold FirstAccepted
    decide
  have hvalue : candidate defaultMult ⟨0, 1⟩ 2 % 3 = 1 := by decide
  have hafter : (⟨0, 1⟩ : GeneratorState).after defaultMult (2 + 1) = ⟨0xC0B18CCF4E252D17, 1⟩ := by decide
  rw [← hvalue, ← hafter]
  exact exec_bounded_firstAccepted (s := { State.reset with gen := some ⟨0, 1⟩ }) (by decide) rfl hfirst

/-- Settles O37: the commands by their thresholds of 0, the candidates by `acceptCandidate_eq_none_iff`, the example by its first
accepted candidate. -/
theorem boundedCornerCases : Obligations.BoundedCornerCases := by
  have hmaxThreshold : threshold 0xFFFFFFFF = 1 := by decide
  have hhalfThreshold : threshold 0x80000001 = 0x7FFFFFFF := by decide
  refine ⟨fun s g hg => exec_bounded_one hg, fun s g k hg hk => exec_bounded_two_pow hg hk, fun c => ?_, fun k c hk => ?_,
    fun c => ?_, by decide, fun c => ?_, by decide, by decide, by decide, ?_, ?_⟩
  · rw [acceptCandidate_of_threshold_eq_zero (by decide) (by decide)]
    exact congrArg some BitVec.umod_one
  · exact ⟨_, acceptCandidate_of_threshold_eq_zero (ofNat_two_pow_ne_zero hk) (threshold_two_pow hk) c,
      toNat_umod_two_pow c hk⟩
  · rw [acceptCandidate_eq_none_iff, hmaxThreshold, and_iff_right (by decide)]
    exact BitVec.lt_one_iff (by decide)
  · rw [acceptCandidate_eq_none_iff, hhalfThreshold, and_iff_right (by decide)]
  · rw [stateAfter_eq exec_bounded_three]
    rfl
  · rw [stateAfter_eq exec_bounded_three]
    rfl

end Sys2Proof.Machine
end

section
/-! The exceptions family (60_exceptions.md): the one fault, what its response word says, and that it leaves no trace. -/

namespace Sys2Proof.Machine

/-! NEXT, BOUNDED and ADVANCE on an unseeded block -/

theorem stateAfter_unseeded {i : Instr} (notSeed : ∀ a b, i ≠ .seed a b) {s : State} (h : s.gen = none) :
    stateAfter i s = raiseUnseeded s :=
  stateAfter_eq (exec_unseeded notSeed h)

theorem stateAfter_unseeded_response {i : Instr} (notSeed : ∀ a b, i ≠ .seed a b) {s : State} (h : s.gen = none) :
    (stateAfter i s).response = some ⟨.errUnseeded, 0⟩ := by
  rw [stateAfter_unseeded notSeed h, response_eq_some_iff, raiseUnseeded_phase]

theorem stateAfter_seed_response (a b : U64) (s : State) : (stateAfter (.seed a b) s).response = some ⟨.ok, 0⟩ := by
  rw [stateAfter_eq (exec_seed a b s), response_eq_some_iff, respond_phase]

theorem stateAfter_seed_seeded (a b : U64) (s : State) : (stateAfter (.seed a b) s).seeded = true := by
  rw [State.seeded, stateAfter_seed_gen, Option.isSome_some]

/-- Settles O38: the three commands by `exec_unseeded`, which holds of every command but SEED. -/
theorem unseededCommandsFault : Obligations.UnseededCommandsFault :=
  ⟨fun _ bound delta h =>
    ⟨exec_unseeded next_ne_seed h, exec_unseeded (bounded_ne_seed bound) h, exec_unseeded (advance_ne_seed delta) h⟩,
   fun s a b => stateAfter_seed_response a b s⟩

/-! The status of a response (R40, R91) -/

theorem seeded_eq_false_iff (s : State) : s.seeded = false ↔ s.gen = none := by
  rw [State.seeded, Option.isSome_eq_false_iff, Option.isNone_iff_eq_none]

theorem word_ok_toNat (data : U32) : (Response.word ⟨.ok, data⟩).toNat = data.toNat := by
  simp [word_toNat, Status.code]

/-- Bit 32 of the response word is the status (R40). -/
theorem word_getLsbD_32 (r : Response) : r.word.getLsbD 32 = true ↔ r.status = .errUnseeded := by
  rw [Response.word, BitVec.getLsbD_append, if_neg (lt_irrefl 32)]
  cases r.status <;> decide

/-- Bits 31 to 0 of the response word are the data (R40). -/
theorem word_setWidth (r : Response) : r.word.setWidth 32 = r.data := by
  rw [Response.word, BitVec.setWidth_append_eq_right]

/-- The fault is answered on an unseeded block to a command other than SEED, with data 0, and nowhere else (R90, R91). -/
theorem CommandEffect.status_eq_errUnseeded_iff {mult : U64} {i : Instr} {gen gen' : Option GeneratorState} {r : Response}
    (h : CommandEffect mult i gen gen' (.responding r)) :
    r.status = .errUnseeded ↔ gen = none ∧ ∀ a b, i ≠ .seed a b := by
  cases h with
  | seed a b => simp
  | unseeded _ notSeed => simp [notSeed]
  | answer _ notSeed g g' value => simp

theorem CommandEffect.eq_of_status_eq_errUnseeded {mult : U64} {i : Instr} {gen gen' : Option GeneratorState} {r : Response}
    (h : CommandEffect mult i gen gen' (.responding r)) (hr : r.status = .errUnseeded) : r = ⟨.errUnseeded, 0⟩ := by
  cases h with
  | seed a b => cases hr
  | unseeded _ notSeed => rfl
  | answer _ notSeed g g' value => cases hr

/-- Settles O39: bit 32 is the status, and the command's effect says when that is `ERR_UNSEEDED`. -/
theorem statusTellsUnseeded : Obligations.StatusTellsUnseeded := by
  refine ⟨fun i s t r h hr => ?_, word_ok_toNat⟩
  obtain ⟨gen', phase', heffect, rfl⟩ := effect_of_exec h
  obtain rfl : phase' = .responding r := (response_eq_some_iff _ r).mp hr
  rw [word_getLsbD_32, seeded_eq_false_iff]
  refine ⟨heffect.status_eq_errUnseeded_iff, fun hstatus => ?_, word_setWidth r⟩
  rw [heffect.eq_of_status_eq_errUnseeded hstatus]
  decide

/-! The fault is not sticky (R96, R97) -/

/-- A command's result does not depend on the phase it finds: a response on the port is replaced by its own. -/
theorem exec_with_phase (i : Instr) (s : State) (phase : Phase) : exec i { s with phase := phase } = exec i s := by
  obtain ⟨gen', phase', -, hexec⟩ := exec_effect i s.config.mult s.gen
  rw [hexec s rfl rfl, hexec { s with phase := phase } rfl rfl]

theorem exec_raiseUnseeded (i : Instr) (s : State) : exec i (raiseUnseeded s) = exec i s :=
  exec_with_phase i s _

theorem stateAfter_raiseUnseeded (i : Instr) (s : State) : stateAfter i (raiseUnseeded s) = stateAfter i s := by
  obtain ⟨gen', phase', -, hexec⟩ := exec_effect i s.config.mult s.gen
  rw [stateAfter_eq (hexec s rfl rfl), stateAfter_eq ((exec_raiseUnseeded i s).trans (hexec s rfl rfl))]

/-- Settles O40: the fault changes the phase only, and no command depends on that. -/
theorem faultIsNotSticky : Obligations.FaultIsNotSticky := by
  intro s i h notSeed
  rw [stateAfter_unseeded notSeed h]
  exact ⟨h, fun j => ⟨exec_raiseUnseeded j s, stateAfter_raiseUnseeded j s⟩,
    fun j hj => stateAfter_unseeded_response hj h,
    fun a b => ⟨stateAfter_seed_response a b _, stateAfter_seed_seeded a b _⟩⟩

end Sys2Proof.Machine
end

section
/-! The reset and hazards family (70_reset_and_hazards.md): reset, the busy block, the one command that may not respond, and when a
transcript is conformant. -/

namespace Sys2Proof.Machine

/-! Reset -/

/-- Settles O44: `step_resets` at the sample on top of the host's list. -/
theorem resetOverridesEverything : Obligations.ResetOverridesEverything := by
  intro s p rest hin hr
  obtain ⟨rfl, hpop⟩ := sample_of_inputs hin
  refine ⟨_, step_resets hr, ?_, rfl, rfl, rfl⟩
  rw [hpop]
  rfl

/-- Settles O45: each is a field of `State.reset`, or a port read off its phase. -/
theorem resetStateIsUnseededAndReady : Obligations.ResetStateIsUnseededAndReady :=
  ⟨rfl, rfl, rfl, rfl⟩

/-! The busy block (R112) -/

/-- Whether the command responds or stays in its loop, the block is busy. -/
theorem exec_cmdReady {i : Instr} {s t : State} (h : exec i s = .next t) : t.cmdReady = false := by
  obtain ⟨st, d, gen', e⟩ | ⟨bound, -, -, e⟩ := exec_cases i s
  · cases e.symm.trans h
    rfl
  · cases e.symm.trans h
    rfl

/-- Of the pins a busy block reads `rst` and `rsp_ready` only. -/
theorem instant_congr_of_busy {p q : Pins} {s : State} (hbusy : s.cmdReady = false) (hr : p.rst = q.rst)
    (hready : p.rspReady = q.rspReady) : instant p s = instant q s := by
  cases hp : s.phase with
  | idle => simp [(cmdReady_iff s).mpr hp] at hbusy
  | responding r => simp only [instant, hp, hr, hready]
  | drawing bound => simp only [instant, hp, hr]

/-- Settles O46, from the two lemmas of this part. -/
theorem busyBlockAcceptsNoCommand : Obligations.BusyBlockAcceptsNoCommand :=
  ⟨fun _ _ _ => exec_cmdReady, fun _ _ _ => instant_congr_of_busy⟩

/-! The command that never responds (R87, R117) -/

/-- Settles O48: a command that has not responded is a BOUNDED in its loop, and the loop a command leaves is sound. -/
theorem onlyAnEndlessLoopDelaysTheResponse : Obligations.OnlyAnEndlessLoopDelaysTheResponse := by
  intro i s
  obtain ⟨st, d, gen', e⟩ | ⟨bound, rfl, -, e⟩ := exec_cases i s
  · rw [stateAfter_eq e]
    exact .inl rfl
  · obtain ⟨hb, g, hg, hlt⟩ := exec_loopSound e bound rfl
    exact .inr ⟨bound, g, rfl, hb, hg, hlt⟩

/-! Conformance of a transcript (R119) -/

/-- A sequence of commands does not answer when its first one loops for ever, or when it responds and the others do not answer. -/
theorem answers_cons_eq_none {i : Instr} {is : List Instr} {s : State} (h : answers (i :: is) s = none) :
    (∃ bound g, i = .bounded bound ∧ bound ≠ 0 ∧ s.gen = some g ∧ ∀ j, candidate s.config.mult g j < threshold bound) ∨
    ∃ r, (stateAfter i s).response = some r ∧ answers is { stateAfter i s with phase := .idle } = none := by
  obtain hvalid | hloop := onlyAnEndlessLoopDelaysTheResponse i s
  · obtain ⟨r, hresponse⟩ := Option.isSome_iff_exists.mp hvalid
    refine .inr ⟨r, hresponse, ?_⟩
    cases hrest : answers is { stateAfter i s with phase := .idle } with
    | none => rfl
    | some result => simp [answers, hresponse, hrest] at h
  · exact .inl hloop

/-- A host that issues commands and takes responses applies no reset. -/
theorem commandSamples_rst {is : List Instr} {p : Pins} (h : p ∈ commandSamples is) : p.rst = false := by
  obtain ⟨i, -, hp⟩ := List.mem_flatMap.mp h
  obtain rfl | rfl : p = Pins.present (encode i) ∨ p = Pins.take := by simpa using hp
  · rfl
  · rfl

/-- When the commands do not all respond, the run delivers fewer responses than there are commands: the first one without a
response keeps the block in its loop to the end of the run. -/
theorem instants_commandSamples_of_answers_eq_none (is : List Instr) {s : State} (hp : s.phase = .idle)
    (h : answers is s = none) (received : List Response) :
    ∃ t, instants (2 * is.length) { s with inputs := commandSamples is, delivered := received } = .next t ∧
      t.delivered.length < received.length + is.length := by
  induction is generalizing s received with
  | nil => cases h
  | cons i is ih =>
    obtain ⟨bound, g, rfl, hb, hg, hlt⟩ | ⟨r, hresponse, hrest⟩ := answers_cons_eq_none h
    · obtain ⟨hexec, hloops⟩ := boundedWithoutCandidateNeverResponds bound
        { s with inputs := Pins.take :: commandSamples is, delivered := received } g hb hg hlt
      have hrst (p : Pins) (hmem : p ∈ Pins.take :: commandSamples is) : p.rst = false := by
        obtain rfl | hmem := List.mem_cons.mp hmem
        · rfl
        · exact commandSamples_rst hmem
      obtain ⟨t, hrun, -, -, hdelivered⟩ := hloops (2 * is.length + 1) hrst
      have haccept := (step_presented_command (s := { s with
        inputs := commandSamples (.bounded bound :: is), delivered := received }) hp rfl).trans hexec
      refine ⟨t, (instants_succ _ haccept).trans hrun, ?_⟩
      simp [hdelivered]
    · obtain ⟨t, hrun, hfewer⟩ := ih rfl hrest (received ++ [r])
      refine ⟨t, (instants_command hp hresponse ..).trans hrun, ?_⟩
      simp only [List.length_append, List.length_cons, List.length_nil] at hfewer ⊢
      omega

/-- The host of a transcript drives what issues the commands of its lines (R49). -/
theorem flatMap_lineSamples (ls : List Line) : ls.flatMap lineSamples = commandSamples (ls.map lineCommand) := by
  rw [commandSamples, List.flatMap_map]
  rfl

/-- What the run of the lines' commands delivers decides whether the transcript is conformant. -/
theorem conformant_iff {ls : List Line} {s t : State}
    (hrun : instants (2 * (ls.map lineCommand).length)
      { s with inputs := commandSamples (ls.map lineCommand), delivered := [] } = .next t) :
    Conformant ls s ↔ t.delivered = ls.map lineExpected := by
  rw [List.length_map] at hrun
  simp [Conformant, flatMap_lineSamples, hrun]

/-- Settles O58: the run is that of the lines' commands. It delivers their answers, or too few responses if one never comes. -/
theorem transcriptConformsWhenItsResponsesDo : Obligations.TranscriptConformsWhenItsResponsesDo := by
  intro ls s hp
  cases hanswers : answers (ls.map lineCommand) s with
  | none =>
    obtain ⟨t, hrun, hfewer⟩ := instants_commandSamples_of_answers_eq_none _ hp hanswers []
    have hne : t.delivered ≠ ls.map lineExpected := by
      intro heq
      simp [heq] at hfewer
    simp [conformant_iff hrun, hne]
  | some result =>
    obtain ⟨rs, t⟩ := result
    have hrun := instants_commandSamples _ hp hanswers [] []
    rw [List.append_nil, List.nil_append] at hrun
    simp [conformant_iff hrun]

end Sys2Proof.Machine
end

section
/-! The remaining statements: the worked command words (30_encoding.md section 5), the lines that a text is read as (R44, N16, U14),
and the command word presented to an idle block (log entries 5 and 10). -/

namespace Sys2Proof.Machine

/-! Worked command words -/

/-- Settles O4: `decodeByOpcodeAndFields` at the operands `a` and `b` of each word; for the last word they are junk, which NEXT
ignores. -/
theorem workedEncodingsDecode : Obligations.WorkedEncodingsDecode := by
  obtain ⟨hseed, -, -, -⟩ := decodeByOpcodeAndFields 42 54
  obtain ⟨-, hnext, -, -⟩ := decodeByOpcodeAndFields 0 0
  obtain ⟨-, -, hbounded, -⟩ := decodeByOpcodeAndFields 6 0
  obtain ⟨-, -, -, hforward⟩ := decodeByOpcodeAndFields 5 0
  obtain ⟨-, -, -, hback⟩ := decodeByOpcodeAndFields 0xFFFFFFFFD555AAAB 0
  obtain ⟨-, hjunk, -, -⟩ := decodeByOpcodeAndFields 0xDEADBEEFDEADBEEF 0x0123456789ABCDEF
  exact ⟨hseed, hnext, hbounded, hforward, hback, hjunk⟩

/-! Lines read from a text -/

/-- The reader's range check (N16, U14). -/
theorem wf_of_parseLine {cs : List Char} {l : Line} (h : parseLine cs = some l) : l.wf = true :=
  (Option.filter_eq_some_iff.mp h).2

/-- Lines are read from a nonempty list of pieces: no lines from an empty piece alone, else the first piece's line and the lines
of the other pieces. -/
theorem parseLines_eq_some {ps : List (List Char)} {ls : List Line} (h : parseLines ps = some ls) :
    (ps = [[]] ∧ ls = []) ∨
    ∃ cs rest l ls', ps = cs :: rest ∧ parseLine cs = some l ∧ parseLines rest = some ls' ∧ ls = l :: ls' := by
  match ps with
  | [] => cases h
  | [cs] => exact .inl (by simpa [parseLines, eq_comm] using h)
  | cs :: next :: rest =>
    rw [parseLines_cons cs (List.cons_ne_nil next rest)] at h
    obtain ⟨l, hl, hrest⟩ := Option.bind_eq_some_iff.mp h
    obtain ⟨ls', hls', rfl⟩ := Option.map_eq_some_iff.mp hrest
    exact .inr ⟨cs, next :: rest, l, ls', rfl, hl, hls', rfl⟩

theorem wf_of_parseLines {ps : List (List Char)} {ls : List Line} (h : parseLines ps = some ls) : ∀ l ∈ ls, l.wf = true := by
  induction ps generalizing ls with
  | nil => cases h
  | cons cs rest ih =>
    obtain ⟨-, rfl⟩ | ⟨_, _, l, ls', ⟨⟩, hl, hls', rfl⟩ := parseLines_eq_some h
    · exact List.forall_mem_nil _
    · exact List.forall_mem_cons.mpr ⟨wf_of_parseLine hl, ih hls'⟩

/-- Settles O7: the lines of a text are those of its pieces. -/
theorem transcriptLinesReadAreWellFormed : Obligations.TranscriptLinesReadAreWellFormed :=
  fun _ _ h => wf_of_parseLines h

/-! The word presented at the next instant -/

/-- The word a number stands for decodes to the command that `decodeTableWord` reads (R36). -/
theorem decode_of_decodeTableWord {nbits w : Nat} {i : Instr} (h : decodeTableWord nbits w = some i) :
    decode (BitVec.ofNat 130 (w % 2 ^ nbits)) = i := by
  simp only [decodeTableWord] at h
  split at h
  · exact Option.some.inj h
  · cases h

/-- A word presented to the ready block is accepted and executed (R35). -/
theorem step_presenting (s : State) (cw : CommandWord) :
    step (s.presenting cw) = exec (decode cw) { s with phase := .idle } := by
  rw [step_idle_accepts rfl rfl rfl, pins_presenting, word_present, popInput_presenting]

/-- Settles O42: the word placed is the word presented, and it decodes to `i`. -/
theorem fetchedWordRunsNext : Obligations.FetchedWordRunsNext := by
  intro s nbits w i h
  calc step (s.withFetchWord nbits w)
      = exec (decode (BitVec.ofNat 130 (w % 2 ^ nbits))) { s with phase := .idle } := step_presenting s _
    _ = exec i { s with phase := .idle } := by rw [decode_of_decodeTableWord h]

end Sys2Proof.Machine
end
